-- ==== Sys2Proof/Word.lean ====
section
/-!
DEFINITION. The base types: the 32-bit word (00_scope.md R11), register indices (R13, 30_encoding.md R72), a bit
field (40_bitfield.md R95 to R97), the opcode enumeration (41_codec.md R116) and the error kinds
(60_exceptions.md R200 to R205, 43_reference_driver.md R183, R190). No operation stands here.
-/
namespace Sys2Proof

/-- The instruction word: a fixed 32-bit unsigned integer (R11, R65). -/
abbrev Word := BitVec 32

/-- An index of the external register file: `NREGS = 16` registers, r0 to r15 (R13, R72). -/
abbrev Reg := Fin 16

/-- A constructed bit field: an inclusive bit range of a word (R95), immutable (R98). The two proofs are what
construct checks (R96), so an illegal field cannot be built (R97). -/
structure BitField where
  lsb : Nat
  msb : Nat
  ordered : lsb ≤ msb
  inWord : msb < 32
deriving DecidableEq, Repr

/-- The closed opcode enumeration (R116). -/
inductive Opcode where
  | halt | load | store | add | sub | mul | div
deriving DecidableEq, Repr

/-- The field a DecodeError names (R122). -/
inductive DecodeField where
  | opcode      -- OPCODE_FIELD
  | condition   -- COND_FIELD
deriving DecidableEq, Repr

/-- The five error kinds of the block with their information (R200 to R205). -/
inductive Err where
  /-- RangeError(lsb, msb): construct, at elaboration only (R201). -/
  | range (lsb msb : Int)
  /-- DecodeError(field, raw value): decode (R202, R122). -/
  | decode (field : DecodeField) (raw : Nat)
  /-- UnsupportedOperationError(op): exec of an opcode the dispatch table lacks (R203). -/
  | unsupported (op : BitVec 5)
  /-- DivisionByZeroError: exec of DIV with operand 2 zero (R204). -/
  | divisionByZero
  /-- OverflowError(op): exec, result outside XLEN bits, under FAULT (R205). -/
  | overflow (op : BitVec 5)
deriving DecidableEq, Repr

/-- What can end a run of the reference driver: an error of the block, or one of the driver's own (R183, R190). -/
inductive RunErr where
  /-- An error of decode or exec, passed on as it is. -/
  | block (e : Err)
  /-- OverflowError with the information OPERAND: `x[rs2] + off` does not fit, under FAULT (R183, R185). -/
  | operandOverflow
  /-- UnwrittenRegister(j): a source register is `⊥` (R190). -/
  | unwrittenRegister (j : Reg)
deriving DecidableEq, Repr

end Sys2Proof
end

