-- ==== Sys2Proof/Config.lean ====
section
/-!
DEFINITION. The parameters of an instance (00_scope.md R14 to R19, 70_reset_and_hazards.md R229, R233): configuration,
fixed at elaboration and never written (10_state.md R35). Plain data, so that a state that carries it stays plain data.
-/
namespace Sys2Proof

/-- OVF_POLICY (R15): what happens when an exact result does not fit in XLEN signed bits. -/
inductive OvfPolicy where
  | fault | wrap
deriving DecidableEq, Repr

/-- The parameters of one instance (R19). -/
structure Config where
  /-- XLEN: width of operands, results and registers (R14). -/
  xlen : Nat
  /-- OVF_POLICY (R15). -/
  ovfPolicy : OvfPolicy
  /-- COND_VALID as a table: entry `c` says whether condition value `c` is recognised (R16). -/
  condValid : Vector Bool 16
  /-- COND_ALWAYS: the field value of the condition named ALWAYS (R16, R87). -/
  condAlways : Fin 16
  /-- IN_W: width of the value inputs of the encoder and the BitField unit (R17). -/
  inW : Nat
  /-- BYTE_ORDER: the word's byte lanes (lane 0 holds bits 7:0) in the order an environment stores them; read by no
  rule (R18, R52). DESIGN CHOICE of the form only (log 9). -/
  byteOrder : List (Fin 4)
  /-- LAT: an implementation's output latency; read by no rule (R233, log 9). -/
  lat : Nat
deriving DecidableEq, Repr

/-- `COND_VALID(c)` (R16). -/
def Config.condOk (cfg : Config) (c : Fin 16) : Bool := cfg.condValid.get c

/-- What a configuration must satisfy before the rules hold (R229): `XLEN >= 11` (R14), `IN_W >= 10` (R17) and
`COND_VALID(COND_ALWAYS)` (R16). -/
abbrev Config.wf (cfg : Config) : Prop :=
  11 ≤ cfg.xlen ∧ 10 ≤ cfg.inW ∧ cfg.condOk cfg.condAlways = true

/-- The configuration of `State.reset`: the spec's defaults XLEN = 32, OVF_POLICY = FAULT, IN_W = XLEN (R14, R15, R17), and
for the OPEN parameters the example EX1 of 92_eei_decisions.md D5, every condition value valid and COND_ALWAYS = 15.
DESIGN CHOICE, unsafe (log 1, log 9): EX1 is not normative. -/
def Config.ex1 : Config where
  xlen := 32
  ovfPolicy := .fault
  condValid := Vector.replicate 16 true
  condAlways := 15
  inW := 32
  byteOrder := [0, 1, 2, 3]
  lat := 0

/-- The example EX2 of 92_eei_decisions.md D5, for tests of condition errors: only the value 15 is valid. -/
def Config.ex2 : Config :=
  { Config.ex1 with condValid := Vector.ofFn fun c => decide (c = 15) }

end Sys2Proof
end

