-- ==== Sys2Proof/Syntax.lean ====
section
/-!
DEFINITION. The instruction as syntax: one constructor per row of spec/opcode_table.json, each with the fields of the one
format I in the order of 41_codec.md R118: condition, target, source 1, source 2, signed offset.
-/
namespace Sys2Proof

/-- An Instruction (R118). The condition and the register indices are 4-bit values (R71, R72); the offset is an integer
whose range is a check of WellFormed. -/
inductive Instr where
  | halt (cond : Fin 16) (rt rs1 rs2 : Reg) (off : Int)
  | load (cond : Fin 16) (rt rs1 rs2 : Reg) (off : Int)
  | store (cond : Fin 16) (rt rs1 rs2 : Reg) (off : Int)
  | add (cond : Fin 16) (rt rs1 rs2 : Reg) (off : Int)
  | sub (cond : Fin 16) (rt rs1 rs2 : Reg) (off : Int)
  | mul (cond : Fin 16) (rt rs1 rs2 : Reg) (off : Int)
  | div (cond : Fin 16) (rt rs1 rs2 : Reg) (off : Int)
deriving DecidableEq, Repr

/-- The instruction's opcode. -/
def Instr.op : Instr → Opcode
  | .halt _ _ _ _ _ => .halt
  | .load _ _ _ _ _ => .load
  | .store _ _ _ _ _ => .store
  | .add _ _ _ _ _ => .add
  | .sub _ _ _ _ _ => .sub
  | .mul _ _ _ _ _ => .mul
  | .div _ _ _ _ _ => .div

/-- The condition field, carried but not evaluated (R40). -/
def Instr.cond : Instr → Fin 16
  | .halt c _ _ _ _ | .load c _ _ _ _ | .store c _ _ _ _ | .add c _ _ _ _ | .sub c _ _ _ _ | .mul c _ _ _ _
  | .div c _ _ _ _ => c

/-- The target register. -/
def Instr.rt : Instr → Reg
  | .halt _ r _ _ _ | .load _ r _ _ _ | .store _ r _ _ _ | .add _ r _ _ _ | .sub _ r _ _ _ | .mul _ r _ _ _
  | .div _ r _ _ _ => r

/-- Source register 1. -/
def Instr.rs1 : Instr → Reg
  | .halt _ _ r _ _ | .load _ _ r _ _ | .store _ _ r _ _ | .add _ _ r _ _ | .sub _ _ r _ _ | .mul _ _ r _ _
  | .div _ _ r _ _ => r

/-- Source register 2. -/
def Instr.rs2 : Instr → Reg
  | .halt _ _ _ r _ | .load _ _ _ r _ | .store _ _ _ r _ | .add _ _ _ r _ | .sub _ _ _ r _ | .mul _ _ _ r _
  | .div _ _ _ r _ => r

/-- The signed offset. -/
def Instr.off : Instr → Int
  | .halt _ _ _ _ o | .load _ _ _ _ o | .store _ _ _ _ o | .add _ _ _ _ o | .sub _ _ _ _ o | .mul _ _ _ _ o
  | .div _ _ _ _ o => o

end Sys2Proof
end

