-- ==== Sys2Proof/WellFormed.lean ====
section
/-!
DEFINITION. Which instructions are well-formed (41_codec.md R117, R118).
-/
namespace Sys2Proof

/-- `InRange(i)` (R118). The bounds `0 <= rt, rs1, rs2 <= 15` hold by the type of the fields; the offset's are checked. -/
abbrev Instr.inRange (i : Instr) : Prop := -512 ≤ i.off ∧ i.off ≤ 511

/-- A well-formed instruction of an instance: its fields are in range (R118) and its condition is one the instance
recognises (R117). -/
abbrev Instr.wellFormed (cfg : Config) (i : Instr) : Prop := cfg.condOk i.cond = true ∧ i.inRange

end Sys2Proof
end

