-- ==== Sys2Proof/Decode.lean ====
section
/-!
DEFINITION. The `instruction_decoder`: the BitField unit (40_bitfield.md), the codec (41_codec.md) over the word layout of
30_encoding.md R66, and the host's `decodeTableWord`. `decode` is total on 32-bit words and rejects by name (R84, R119).
-/
namespace Sys2Proof

/-! ## Integers and bits (00_scope.md R22, R23) -/

/-- `low_n(v) = v mod 2^n`, the Euclidean remainder (R23). -/
def lowBits (n : Nat) (v : Int) : Nat := (v % ((2 ^ n : Nat) : Int)).toNat

/-- The two's-complement value of the n-bit pattern `u` (R22, R101): `u - 2^n` when its top bit is 1, else `u`. -/
def signedOf (n u : Nat) : Int := if u.testBit (n - 1) then (u : Int) - ((2 ^ n : Nat) : Int) else (u : Int)

/-! ## The BitField unit -/

/-- `width = msb - lsb + 1` (R95). -/
def BitField.width (f : BitField) : Nat := f.msb - f.lsb + 1

/-- `field_mask = 2^width - 1`, the mask before shifting (R95). -/
def BitField.fieldMask (f : BitField) : Nat := 2 ^ f.width - 1

/-- `word_mask = field_mask << lsb`, 32 bits (R95). -/
def BitField.wordMask (f : BitField) : Word := BitVec.ofNat 32 f.fieldMask <<< f.lsb

/-- construct(lsb, msb) (R96): RangeError exactly when a bound is negative, `lsb > msb` or `msb >= 32`. -/
def construct (lsb msb : Int) : Except Err BitField :=
  if h : 0 ≤ lsb ∧ 0 ≤ msb ∧ lsb ≤ msb ∧ msb < 32 then
    .ok ⟨lsb.toNat, msb.toNat, by omega, by omega⟩
  else .error (.range lsb msb)

/-- extract(word) (R99): shift right by `lsb`, mask to the field. -/
def BitField.extract (f : BitField) (w : Word) : Nat := (w.toNat >>> f.lsb) &&& f.fieldMask

/-- extract_signed(word) (R101): as extract, then the field's top bit is a sign. -/
def BitField.extractSigned (f : BitField) (w : Word) : Int := signedOf f.width (f.extract w)

/-- insert(value, word) (R103): the value's low `width` bits replace the field; an oversized value is truncated (R104). -/
def BitField.insert (f : BitField) (v : Int) (w : Word) : Word :=
  (w &&& ~~~f.wordMask) ||| (BitVec.ofNat 32 (lowBits f.width v) <<< f.lsb)

/-! ## The codec's field table (R66, R115) -/

/-- `opcode`, w[30:26]. -/
def fieldOpcode : BitField := ⟨26, 30, by decide, by decide⟩
/-- `condition`, w[25:22]. -/
def fieldCond : BitField := ⟨22, 25, by decide, by decide⟩
/-- `reg_target`, w[21:18]. -/
def fieldRt : BitField := ⟨18, 21, by decide, by decide⟩
/-- `reg_src1`, w[17:14]. -/
def fieldRs1 : BitField := ⟨14, 17, by decide, by decide⟩
/-- `reg_src2`, w[13:10]. -/
def fieldRs2 : BitField := ⟨10, 13, by decide, by decide⟩
/-- `offset`, w[9:0], signed. -/
def fieldOffset : BitField := ⟨0, 9, by decide, by decide⟩

/-- The six fields in the order of R115; bit 31 belongs to none (R67). -/
def codecFields : List BitField := [fieldOpcode, fieldCond, fieldRt, fieldRs1, fieldRs2, fieldOffset]

/-! ## The opcode map (R77, R116) -/

/-- `ord(op)` (R116). -/
def Opcode.ord : Opcode → Nat
  | .halt => 0
  | .load => 1
  | .store => 2
  | .add => 3
  | .sub => 5
  | .mul => 6
  | .div => 7

/-- `Opcode(n)`, defined for the seven ordinals only (R116): 4 is reserved (R78), 8 to 31 have no entry (R79). -/
def Opcode.ofOrd : Nat → Option Opcode
  | 0 => some .halt
  | 1 => some .load
  | 2 => some .store
  | 3 => some .add
  | 5 => some .sub
  | 6 => some .mul
  | 7 => some .div
  | _ => none

/-- The Instruction value with these six fields (R118). -/
def Instr.ofFields (op : Opcode) (cond : Fin 16) (rt rs1 rs2 : Reg) (off : Int) : Instr :=
  match op with
  | .halt => .halt cond rt rs1 rs2 off
  | .load => .load cond rt rs1 rs2 off
  | .store => .store cond rt rs1 rs2 off
  | .add => .add cond rt rs1 rs2 off
  | .sub => .sub cond rt rs1 rs2 off
  | .mul => .mul cond rt rs1 rs2 off
  | .div => .div cond rt rs1 rs2 off

/-! ## decode and encode -/

/-- A 4-bit unsigned field as an index; `extract` is below 16 on a field of width 4. -/
def BitField.index (f : BitField) (w : Word) : Fin 16 := Fin.ofNat 16 (f.extract w)

/-- decode(word) (R119). The opcode is checked before the condition (R120); bit 31 is not read (R121). -/
def decode (cfg : Config) (w : Word) : Except Err Instr :=
  match Opcode.ofOrd (fieldOpcode.extract w) with
  | none => .error (.decode .opcode (fieldOpcode.extract w))
  | some op =>
    if cfg.condOk (fieldCond.index w) then
      .ok (Instr.ofFields op (fieldCond.index w) (fieldRt.index w) (fieldRs1.index w) (fieldRs2.index w)
        (fieldOffset.extractSigned w))
    else .error (.decode .condition (fieldCond.extract w))

/-- encode on raw integers (R124): six inserts into the zero word; never fails, truncates (R125, R127). -/
def encodeRaw (op cond rt rs1 rs2 off : Int) : Word :=
  fieldOffset.insert off (fieldRs2.insert rs2 (fieldRs1.insert rs1 (fieldRt.insert rt
    (fieldCond.insert cond (fieldOpcode.insert op 0)))))

/-- encode(instruction) (R124), with `op = ord(i.op)`. -/
def encode (i : Instr) : Word :=
  encodeRaw i.op.ord i.cond.val i.rt.val i.rs1.val i.rs2.val i.off

/-- in_range, the separate range check of R128. -/
def inRangeRaw (cfg : Config) (op cond rt rs1 rs2 off : Int) : Bool :=
  decide (op ∈ [0, 1, 2, 3, 5, 6, 7]) && decide (0 ≤ cond ∧ cond ≤ 15) && cfg.condOk (Fin.ofNat 16 cond.toNat) &&
    decide (0 ≤ rt ∧ rt ≤ 15) && decide (0 ≤ rs1 ∧ rs1 ≤ 15) && decide (0 ≤ rs2 ∧ rs2 ≤ 15) &&
    decide (-512 ≤ off ∧ off ≤ 511)

/-- The word of the first 32 of `nbits` given bits; bits at and above `nbits` are 0. -/
def tableWord (nbits w : Nat) : Word := BitVec.ofNat 32 (w % 2 ^ nbits)

/-- The host's question: the instruction this decoder reads from the word, under the configuration of reset (log 10). -/
def decodeTableWord (nbits w : Nat) : Option Instr := (decode Config.ex1 (tableWord nbits w)).toOption

end Sys2Proof
end

