-- ==== Sys2Proof/Machine/State.lean ====
section
/-!
DEFINITION. The machine's state: that of the reference driver (43_reference_driver.md R181) with the instance's parameters
(00_scope.md R19). The block itself holds none (10_state.md R30). There is no memory (20_memory.md R50).
-/
namespace Sys2Proof.Machine

/-- The three-valued condition an exec produces (42_alu_dispatch.md R145). -/
inductive Cc where
  | neg | zero | pos
deriving DecidableEq, Repr

/-- Whether the run goes on (R181). -/
inductive Status where
  | running
  | done
  | error (e : RunErr)
deriving DecidableEq, Repr

/-- The external register file (10_state.md R36): 16 registers, each an XLEN-bit value or `⊥` (R181, R192). -/
abbrev RegFile (xlen : Nat) := Vector (Option (BitVec xlen)) 16

/-- Everything the spec gives the machine (R181). `⊥` is `none`. -/
structure State where
  /-- The instance's parameters: configuration, never written (R35; log 1). -/
  cfg : Config
  /-- `P`: the program, one word per instruction, never written (R181). -/
  prog : List Word
  /-- `idx`: index of the next word, `0 <= idx <= n` (R181). -/
  idx : Nat
  /-- `x[0..15]`: the external register file, each an XLEN-bit value or `⊥` (R181, R192). -/
  x : RegFile cfg.xlen
  /-- `cc`: the condition of the last successful exec, or `⊥` (R181). -/
  cc : Option Cc
  /-- `status` (R181). -/
  status : Status
deriving DecidableEq, Repr

/-- Why a step has no successor. Both are safe: no claim about a next state can rest on a step that stops. -/
inductive Fault where
  /-- Raised by `step` when `status` is DONE or ERROR: "No later step is taken" (R189, R183). Safe (log 5). -/
  | runEnded
  /-- Raised by `step` when `idx` lies past the end of `P`, which R181 excludes and no run reaches. Safe (log 6). -/
  | indexPastProgram
deriving DecidableEq, Repr

/-- Why an instruction has no meaning. -/
inductive Refusal where
  /-- Raised by `exec` for an instruction that has no meaning yet; no arm raises it. Safe. -/
  | notModelled (mnemonic : String)
deriving DecidableEq, Repr

/-- The launch state (R182): `idx = 0`, `cc = ⊥`, `status = RUNNING`; the registers are the launch's, each a value or `⊥`. -/
def State.launch (cfg : Config) (prog : List Word) (x : RegFile cfg.xlen) : State :=
  { cfg, prog, idx := 0, x, cc := none, status := .running }

/-- The machine right after reset: the launch state (R182, R227) of the default instance with nothing loaded. The registers'
zeros are a DESIGN CHOICE, unsafe (log 2), so is the empty program (log 3) and the OPEN parameters' values (log 1). -/
def State.reset : State := State.launch Config.ex1 [] (Vector.replicate 16 (some 0))

end Sys2Proof.Machine
end

