-- ==== Sys2Proof/Machine/Flags.lean ====
section
/-!
DEFINITION. The condition of a result (42_alu_dispatch.md R145, R146). The block has no other flag (R156, 10_state.md R39).
-/
namespace Sys2Proof.Machine

/-- `cls(r)` (00_scope.md R28, R145). -/
def cls (r : Int) : Cc := if r < 0 then .neg else if r = 0 then .zero else .pos

/-- `enc_cc`: the one-hot code on the port `alu_cc` (R146). -/
def encCc : Cc → BitVec 3
  | .neg => 0b001
  | .zero => 0b010
  | .pos => 0b100

end Sys2Proof.Machine
end

