-- ==== Sys2Proof/Machine/Ops.lean ====
section
/-!
DEFINITION. The named operations over the driver's state (43_reference_driver.md): register read, write-back, ending a run in
an error, the end of the program, and taking the next word.
-/
namespace Sys2Proof.Machine

/-- Read register `j`: a value, or `none` for `⊥`. All 16 registers alike, none hard-wired (R192). -/
def readFile {xlen : Nat} (x : RegFile xlen) (j : Reg) : Option (BitVec xlen) := x[j.val]

/-- Register `j` of a state. -/
def State.readReg (s : State) (j : Reg) : Option (BitVec s.cfg.xlen) := readFile s.x j

/-- Write-back after a successful exec: `x[rt] <- r`, `cc <- c`, `idx <- idx + 1` (R183, R187). -/
def State.writeBack (s : State) (rt : Reg) (r : BitVec s.cfg.xlen) (c : Cc) : State :=
  { s with x := s.x.set rt.val (some r), cc := some c, idx := s.idx + 1 }

/-- An error ends the run: `status <- ERROR(E, info)`, and nothing else is written (R183, R189). This is the only way an
error is taken; there is no trap state, no vector (60_exceptions.md R213), and no return from it (R214). -/
def State.raise (s : State) (e : RunErr) : State := { s with status := .error e }

/-- `idx = n`: every word has been run (R183). -/
def State.atEnd (s : State) : Bool := decide (s.idx = s.prog.length)

/-- The end of a run without error: `status <- DONE` (R183). -/
def State.finish (s : State) : State := { s with status := .done }

/-- The word `P[idx]` (R183); words are numbered by position (R191). -/
def State.nextWord (s : State) : Option Word := s.prog[s.idx]?

/-- `l` with `w` at position `k`; positions that `l` lacks below `k` are filled with zero words. -/
def placeWord (l : List Word) (k : Nat) (w : Word) : List Word :=
  (l ++ List.replicate (k - l.length) 0).take k ++ w :: l.drop (k + 1)

end Sys2Proof.Machine
end

