-- ==== Sys2Proof/Machine/Operands.lean ====
section
/-!
DEFINITION. XLEN-bit representation under OVF_POLICY (42_alu_dispatch.md R144, 43_reference_driver.md R185) and the formation
of the ALU's two operands (R183, R184).
-/
namespace Sys2Proof.Machine

/-- `fits_XLEN(r)` (00_scope.md R28). -/
def fits (xlen : Nat) (r : Int) : Bool :=
  decide (-((2 ^ (xlen - 1) : Nat) : Int) ≤ r ∧ r ≤ ((2 ^ (xlen - 1) : Nat) : Int) - 1)

/-- The value delivered for the exact integer `r`: `r` itself when it fits; else nothing under FAULT, and
`sint_XLEN(low_XLEN(r))` under WRAP (R144, R185). -/
def deliver (xlen : Nat) (pol : OvfPolicy) (r : Int) : Option Int :=
  if fits xlen r then some r
  else
    match pol with
    | .fault => none
    | .wrap => some (signedOf xlen (lowBits xlen r))

/-- `form_b(v, off)`: operand 2, the register's signed value plus the offset; `none` when it fails (R185). -/
def formB {xlen : Nat} (pol : OvfPolicy) (v : BitVec xlen) (off : Int) : Option (BitVec xlen) :=
  (deliver xlen pol (v.toInt + off)).map (BitVec.ofInt xlen)

/-- The two operands of an instruction: `x[rs1]`, and `x[rs2]` plus the offset (R184). `rs1` is checked for `⊥` before
`rs2`, and both before operand 2 is formed (R183). -/
def operands {xlen : Nat} (pol : OvfPolicy) (x : RegFile xlen) (rs1 rs2 : Reg) (off : Int) :
    Except RunErr (BitVec xlen × BitVec xlen) :=
  match readFile x rs1 with
  | none => .error (.unwrittenRegister rs1)
  | some a =>
    match readFile x rs2 with
    | none => .error (.unwrittenRegister rs2)
    | some v =>
      match formB pol v off with
      | none => .error .operandOverflow
      | some b => .ok (a, b)

end Sys2Proof.Machine
end

