-- ==== Sys2Proof/Machine/Alu.lean ====
section
/-!
DEFINITION. `alu_dispatch_mux`: exec(op, a, b) of 42_alu_dispatch.md R140, and the driver's use of it for one decoded
instruction (43_reference_driver.md R183).
-/
namespace Sys2Proof.Machine

/-- `tdiv(a, b)`: the quotient rounded toward zero, `s * floor(|a| / |b|)` (00_scope.md R28). -/
def tdiv (a b : Int) : Int :=
  (if a = 0 ∨ (a < 0 ↔ b < 0) then 1 else -1) * ((a.natAbs / b.natAbs : Nat) : Int)

/-- The table's function for ADD (R148). -/
def aluAdd (a b : Int) : Except Err Int := .ok (a + b)

/-- The table's function for SUB: `a` is the minuend (R149). -/
def aluSub (a b : Int) : Except Err Int := .ok (a - b)

/-- The table's function for MUL: the exact product (R150). -/
def aluMul (a b : Int) : Except Err Int := .ok (a * b)

/-- The table's function for DIV: DivisionByZeroError on a zero divisor, else rounding toward zero (R151). -/
def aluDiv (a b : Int) : Except Err Int := if b = 0 then .error .divisionByZero else .ok (tdiv a b)

/-- The dispatch table (R141): exactly four entries; every other opcode, HALT, LOAD and STORE included, is absent. -/
def dispatchTable (op : BitVec 5) : Option (Int → Int → Except Err Int) :=
  match op.toNat with
  | 3 => some aluAdd
  | 5 => some aluSub
  | 6 => some aluMul
  | 7 => some aluDiv
  | _ => none

/-- `represent(op, r)` (R144). -/
def represent (xlen : Nat) (pol : OvfPolicy) (op : BitVec 5) (r : Int) : Except Err Int :=
  match deliver xlen pol r with
  | none => .error (.overflow op)
  | some r' => .ok r'

/-- The pair an exec returns (R140). -/
structure AluOut (xlen : Nat) where
  result : BitVec xlen
  cond : Cc
deriving DecidableEq, Repr

/-- exec(op, a, b) (R140): the table lookup first, then the zero divisor, then representation (R142). The condition is that
of the delivered result (R145). -/
def aluExec {xlen : Nat} (pol : OvfPolicy) (op : BitVec 5) (a b : BitVec xlen) : Except Err (AluOut xlen) :=
  match dispatchTable op with
  | none => .error (.unsupported op)
  | some f =>
    match f a.toInt b.toInt with
    | .error e => .error e
    | .ok exact =>
      match represent xlen pol op exact with
      | .error e => .error e
      | .ok r => .ok ⟨BitVec.ofInt xlen r, cls r⟩

/-- What the driver computes for a decoded instruction of opcode `op` (R183): it reads the operands, then dispatches to the ALU;
the first error is the outcome. Every decoded opcode is dispatched, HALT, LOAD and STORE too (R186). -/
def driverResult {xlen : Nat} (pol : OvfPolicy) (x : RegFile xlen) (op : Opcode) (rs1 rs2 : Reg) (off : Int) :
    Except RunErr (AluOut xlen) :=
  match operands pol x rs1 rs2 off with
  | .error e => .error e
  | .ok (a, b) =>
    match aluExec pol (BitVec.ofNat 5 op.ord) a b with
    | .error e => .error (.block e)
    | .ok out => .ok out

/-- What the driver does with it: an error ends the run, a result is written back (R183). -/
def dispatchToAlu (op : Opcode) (rt rs1 rs2 : Reg) (off : Int) (s : State) : State :=
  match driverResult s.cfg.ovfPolicy s.x op rs1 rs2 off with
  | .error e => s.raise e
  | .ok out => s.writeBack rt out.result out.cond

end Sys2Proof.Machine
end

