-- ==== Sys2Proof/Machine/Arith.lean ====
section
/-!
DEFINITION. The arithmetic family: ADD, SUB, MUL, DIV (42_alu_dispatch.md R148 to R151) as the driver runs them. The condition
field is carried and ignored: every decoded instruction executes (43_reference_driver.md R188).
-/
namespace Sys2Proof.Machine

/-- ADD (R148): `x[rt] <- x[rs1] + (x[rs2] + off)`. -/
def execAdd (_cond : Fin 16) (rt rs1 rs2 : Reg) (off : Int) (s : State) : Host.Outcome State Fault Refusal :=
  .next (dispatchToAlu .add rt rs1 rs2 off s)

/-- SUB (R149): `x[rt] <- x[rs1] - (x[rs2] + off)`. -/
def execSub (_cond : Fin 16) (rt rs1 rs2 : Reg) (off : Int) (s : State) : Host.Outcome State Fault Refusal :=
  .next (dispatchToAlu .sub rt rs1 rs2 off s)

/-- MUL (R150): `x[rt] <- x[rs1] * (x[rs2] + off)`. -/
def execMul (_cond : Fin 16) (rt rs1 rs2 : Reg) (off : Int) (s : State) : Host.Outcome State Fault Refusal :=
  .next (dispatchToAlu .mul rt rs1 rs2 off s)

/-- DIV (R151): `x[rt] <- tdiv(x[rs1], x[rs2] + off)`, DivisionByZeroError when operand 2 is zero. -/
def execDiv (_cond : Fin 16) (rt rs1 rs2 : Reg) (off : Int) (s : State) : Host.Outcome State Fault Refusal :=
  .next (dispatchToAlu .div rt rs1 rs2 off s)

end Sys2Proof.Machine
end

