-- ==== Sys2Proof/Machine/Control.lean ====
section
/-!
DEFINITION. HALT, LOAD and STORE (42_alu_dispatch.md R152 to R154) as the driver runs them: dispatched like every decoded
instruction, they end the run with UnsupportedOperationError (43_reference_driver.md R186). No stop meaning, no memory
effect (20_memory.md R64).
-/
namespace Sys2Proof.Machine

/-- HALT (R152, R186): the run ends with UnsupportedOperationError(0). -/
def execHalt (_cond : Fin 16) (rt rs1 rs2 : Reg) (off : Int) (s : State) : Host.Outcome State Fault Refusal :=
  .next (dispatchToAlu .halt rt rs1 rs2 off s)

/-- LOAD (R153, R186): the run ends with UnsupportedOperationError(1). -/
def execLoad (_cond : Fin 16) (rt rs1 rs2 : Reg) (off : Int) (s : State) : Host.Outcome State Fault Refusal :=
  .next (dispatchToAlu .load rt rs1 rs2 off s)

/-- STORE (R154, R186): the run ends with UnsupportedOperationError(2). -/
def execStore (_cond : Fin 16) (rt rs1 rs2 : Reg) (off : Int) (s : State) : Host.Outcome State Fault Refusal :=
  .next (dispatchToAlu .store rt rs1 rs2 off s)

end Sys2Proof.Machine
end

