-- ==== Sys2Proof/Machine/Dispatch.lean ====
section
/-!
DEFINITION. One arm per instruction: what the driver does with a decoded instruction (43_reference_driver.md R183). That the
run is going on is checked by `step` (log 11).
-/
namespace Sys2Proof.Machine

def exec (i : Instr) (s : State) : Host.Outcome State Fault Refusal :=
  match i with
  | .halt cond rt rs1 rs2 off => Sys2Proof.Machine.execHalt cond rt rs1 rs2 off s
  | .load cond rt rs1 rs2 off => Sys2Proof.Machine.execLoad cond rt rs1 rs2 off s
  | .store cond rt rs1 rs2 off => Sys2Proof.Machine.execStore cond rt rs1 rs2 off s
  | .add cond rt rs1 rs2 off => Sys2Proof.Machine.execAdd cond rt rs1 rs2 off s
  | .sub cond rt rs1 rs2 off => Sys2Proof.Machine.execSub cond rt rs1 rs2 off s
  | .mul cond rt rs1 rs2 off => Sys2Proof.Machine.execMul cond rt rs1 rs2 off s
  | .div cond rt rs1 rs2 off => Sys2Proof.Machine.execDiv cond rt rs1 rs2 off s

end Sys2Proof.Machine
end

