-- ==== Sys2Proof/Machine/Step.lean ====
section
/-!
DEFINITION. One step of the reference driver (43_reference_driver.md R183), and the host's way to place an instruction where
the next step takes it.
-/
namespace Sys2Proof.Machine

/-- One step (R183). It is taken only when `status = RUNNING`; otherwise there is no later step (R189, log 5). -/
def step (s : State) : Host.Outcome State Fault Refusal :=
  match s.status with
  | .running =>
    if s.atEnd then .next s.finish
    else
      match s.nextWord with
      | none => .fault .indexPastProgram
      | some w =>
        match decode s.cfg w with
        | .error e => .next (s.raise (.block e))
        | .ok i => exec i s
  | _ => .fault .runEnded

/-- `s` with the word as `P[idx]` and the run going on, so that the next step runs exactly it (log 3). -/
def State.withFetchWord (s : State) (nbits w : Nat) : State :=
  { s with prog := placeWord s.prog s.idx (tableWord nbits w), status := .running }

end Sys2Proof.Machine
end

