-- ==== Sys2Proof/Machine/Ports.lean ====
section
/-!
DEFINITION. The blocks' interface signals (10_state.md R45 to R48) and the error codes on them (60_exceptions.md R206). Each
output is a function of the inputs and the parameters alone. An output that is unspecified on an error has no value here: it
is `none` (R209, log 8).
-/
namespace Sys2Proof.Machine

/-- The error code of a kind (R206). Code 1 appears on no port (R201); 0 is "none". -/
def errCode : Err → BitVec 3
  | .range _ _ => 1
  | .decode _ _ => 2
  | .unsupported _ => 3
  | .divisionByZero => 4
  | .overflow _ => 5

/-! ## `bitfield_unit #(LSB, MSB)` (R45) -/

/-- Its outputs; `W` is the field's width. -/
structure BitFieldOut (W : Nat) where
  bf_u : BitVec W
  bf_s : BitVec W
  bf_ins : Word
deriving DecidableEq, Repr

/-- Whether an instance may be built: `IN_W >= W` (40_bitfield.md R104); that `(LSB, MSB)` is legal is construct's check. -/
def unitLegal (cfg : Config) (f : BitField) : Bool := decide (f.width ≤ cfg.inW)

/-- The unit: extract, extract_signed and insert of one word and one IN_W-bit value (R99, R101, R103). -/
def bitfieldUnit (cfg : Config) (f : BitField) (bf_word : Word) (bf_value : BitVec cfg.inW) : BitFieldOut f.width where
  bf_u := BitVec.ofNat f.width (f.extract bf_word)
  bf_s := BitVec.ofInt f.width (f.extractSigned bf_word)
  bf_ins := f.insert bf_value.toInt bf_word

/-! ## `instruction_decoder`, decode side (R46) -/

/-- The decoder's data outputs. -/
structure DecData (xlen : Nat) where
  dec_op : BitVec 5
  dec_cond : BitVec 4
  dec_rt : BitVec 4
  dec_rs1 : BitVec 4
  dec_rs2 : BitVec 4
  dec_off : BitVec xlen
deriving DecidableEq, Repr

/-- The decoder's outputs. `data` is `none` while `dec_err` is nonzero; `dec_err_field` has a value only when
`dec_err = 2`. -/
structure DecOut (xlen : Nat) where
  data : Option (DecData xlen)
  dec_err : BitVec 3
  dec_err_field : Option (BitVec 1)
deriving DecidableEq, Repr

/-- The port `dec_err_field`: 0 for the opcode field, 1 for the condition field. -/
def errFieldBit : Err → Option (BitVec 1)
  | .decode .opcode _ => some 0
  | .decode .condition _ => some 1
  | _ => none

/-- The decode side: the word's slices (R46), with the offset sign-extended to XLEN bits (30_encoding.md R75). -/
def decoderPorts (cfg : Config) (dec_word : Word) : DecOut cfg.xlen :=
  match decode cfg dec_word with
  | .ok _ =>
    { data := some
        { dec_op := dec_word.extractLsb' 26 5
          dec_cond := dec_word.extractLsb' 22 4
          dec_rt := dec_word.extractLsb' 18 4
          dec_rs1 := dec_word.extractLsb' 14 4
          dec_rs2 := dec_word.extractLsb' 10 4
          dec_off := (dec_word.extractLsb' 0 10).signExtend cfg.xlen }
      dec_err := 0
      dec_err_field := none }
  | .error e => { data := none, dec_err := errCode e, dec_err_field := errFieldBit e }

/-! ## `instruction_decoder`, encode side (R47) -/

/-- The encoder's inputs, each IN_W bits, two's complement. -/
structure EncIn (inW : Nat) where
  enc_op : BitVec inW
  enc_cond : BitVec inW
  enc_rt : BitVec inW
  enc_rs1 : BitVec inW
  enc_rs2 : BitVec inW
  enc_off : BitVec inW
deriving DecidableEq, Repr

/-- The encoder's outputs; there is no error output (41_codec.md R127). -/
structure EncOut where
  enc_word : Word
  enc_in_range : Bool
deriving DecidableEq, Repr

/-- The encode side: the packed word (R124) and the separate range check (R128). -/
def encoderPorts (cfg : Config) (p : EncIn cfg.inW) : EncOut where
  enc_word :=
    encodeRaw p.enc_op.toInt p.enc_cond.toInt p.enc_rt.toInt p.enc_rs1.toInt p.enc_rs2.toInt p.enc_off.toInt
  enc_in_range :=
    inRangeRaw cfg p.enc_op.toInt p.enc_cond.toInt p.enc_rt.toInt p.enc_rs1.toInt p.enc_rs2.toInt p.enc_off.toInt

/-! ## `alu_dispatch_mux` (R48) -/

/-- The ALU's outputs; `data` is `alu_result` and `alu_cc`, `none` while `alu_err` is nonzero. -/
structure AluPortsOut (xlen : Nat) where
  data : Option (BitVec xlen × BitVec 3)
  alu_err : BitVec 3
deriving DecidableEq, Repr

/-- The ALU: exec on the ports, the condition one-hot (R146). -/
def aluPorts (cfg : Config) (alu_op : BitVec 5) (alu_a alu_b : BitVec cfg.xlen) : AluPortsOut cfg.xlen :=
  match aluExec cfg.ovfPolicy alu_op alu_a alu_b with
  | .ok out => { data := some (out.result, encCc out.cond), alu_err := 0 }
  | .error e => { data := none, alu_err := errCode e }

end Sys2Proof.Machine
end

