-- ==== Sys2Proof/Safety.lean ====
section
/-!
DEFINITION. The vocabulary of the claims: a safe state and a good state of the driver, a run, the range of XLEN bits, and the two
changes of a state (renamed registers, other values of the parameters no rule reads) that claims compare runs over.
-/
namespace Sys2Proof.Machine

/-- `r` lies in the range of `n` signed bits, written out as 00_scope.md R28 writes `fits_XLEN`. -/
abbrev FitsSigned (n : Nat) (r : Int) : Prop := -(2 : Int) ^ (n - 1) ≤ r ∧ r ≤ (2 : Int) ^ (n - 1) - 1

/-- A decoded word stands for opcode `op` exactly when its opcode field matches `m` under the mask of the opcode field
(30_encoding.md R77). -/
def EncodedAs (op : Opcode) (m : Word) : Prop :=
  ∀ (cfg : Config) (w : Word) (i : Instr), decode cfg w = .ok i → (i.op = op ↔ w &&& 0x7C000000 = m)

/-- The signed value a register holds, `none` for `⊥`. -/
def State.regValue (s : State) (j : Reg) : Option Int := (s.readReg j).map BitVec.toInt

/-- The run has not ended in an error (43_reference_driver.md R181). -/
def State.safe (s : State) : Prop := ∀ e, s.status ≠ .error e

/-- The relations between the driver's pieces of state that every step keeps (R181 to R189): the instance is legal (R229);
`0 <= idx <= n`; a run that is DONE has used up the program, and one in ERROR stands at the failing word (R189); `cc` is
`⊥` exactly until the first successful exec (R181). -/
structure State.Inv (s : State) : Prop where
  config : s.cfg.wf
  inProgram : s.idx ≤ s.prog.length
  doneAtEnd : s.status = .done → s.idx = s.prog.length
  errorAtWord : ∀ e, s.status = .error e → s.idx < s.prog.length
  ccSet : s.cc = none ↔ s.idx = 0

/-- `t` is the state after `k` steps of the machine from `s`, none of which stopped. -/
def reachesIn (k : Nat) (s t : State) : Prop := core.run k s = .next t

/-! ## Renamed registers (R192) -/

/-- An error with the register it names renamed. -/
def renameErr (p : Equiv.Perm Reg) : RunErr → RunErr
  | .unwrittenRegister j => .unwrittenRegister (p j)
  | e => e

/-- A status with the register its error names renamed. -/
def renameStatus (p : Equiv.Perm Reg) : Status → Status
  | .error e => .error (renameErr p e)
  | st => st

/-- The register file in which register `p j` holds what register `j` held. -/
def renameFile {xlen : Nat} (p : Equiv.Perm Reg) (x : RegFile xlen) : RegFile xlen :=
  Vector.ofFn fun j => readFile x (p.symm j)

/-- The state with its registers renamed. -/
def State.rename (p : Equiv.Perm Reg) (s : State) : State :=
  { s with x := renameFile p s.x, status := renameStatus p s.status }

/-- The instruction with its three registers renamed. -/
def renameInstr (p : Equiv.Perm Reg) (i : Instr) : Instr :=
  Instr.ofFields i.op i.cond (p i.rt) (p i.rs1) (p i.rs2) i.off

/-! ## Parameters that no step reads (00_scope.md R18, 70_reset_and_hazards.md R233) -/

/-- Values for the parameters that no rule of the driver's step reads. -/
structure Unread where
  condAlways : Fin 16
  inW : Nat
  byteOrder : List (Fin 4)
  lat : Nat

/-- The same state of an instance with other values of those parameters. -/
def State.withUnread (u : Unread) (s : State) : State :=
  { s with cfg := { s.cfg with condAlways := u.condAlways, inW := u.inW, byteOrder := u.byteOrder, lat := u.lat } }

end Sys2Proof.Machine
end

