-- ==== Sys2Proof/Certificates/Slice0/Obligations.lean ====
section
/-!
DEFINITION. The statements for the provers, in the order of the spec's files. Every statement holds for every configuration,
or names the condition on it; none rests on a value that State.reset chooses.
-/

open Sys2Proof Sys2Proof.Machine

/-! ## 40_bitfield.md -/

/-- R96: construct accepts exactly the legal ranges, and a RangeError carries the pair. -/
def Obligations.ConstructAcceptsExactlyLegalRanges : Prop :=
  ∀ lsb msb : Int,
    ((0 ≤ lsb ∧ 0 ≤ msb ∧ lsb ≤ msb ∧ msb < 32) →
      ∃ f, construct lsb msb = .ok f ∧ (f.lsb : Int) = lsb ∧ (f.msb : Int) = msb) ∧
    ((lsb < 0 ∨ msb < 0 ∨ lsb > msb ∨ msb ≥ 32) → construct lsb msb = .error (.range lsb msb))

/-- R95, R97: the width and the two masks of a constructed field; the word mask is the field's bits and loses none. -/
def Obligations.FieldMasksCoverTheField : Prop :=
  ∀ f : BitField,
    f.lsb ≤ f.msb ∧ f.msb ≤ 31 ∧ f.width = f.msb - f.lsb + 1 ∧ 1 ≤ f.width ∧ f.width ≤ 32 ∧
    f.fieldMask = 2 ^ f.width - 1 ∧ f.wordMask.toNat = f.fieldMask * 2 ^ f.lsb ∧
    ∀ i < 32, f.wordMask.getLsbD i = decide (f.lsb ≤ i ∧ i ≤ f.msb)

/-- R99: extract returns `word[msb:lsb]`, within the field's range, whatever the other bits are. -/
def Obligations.ExtractReturnsTheSlice : Prop :=
  ∀ (f : BitField) (w : Word),
    f.extract w = (w.extractLsb f.msb f.lsb).toNat ∧ f.extract w ≤ 2 ^ f.width - 1 ∧
    ∀ w' : Word, w &&& f.wordMask = w' &&& f.wordMask → f.extract w' = f.extract w

/-- R100: on a host integer of any sign, the masked arithmetic shift equals extract of its low 32 bits. -/
def Obligations.ExtractOfHostIntegerSeesLow32 : Prop :=
  ∀ (f : BitField) (v : Int), f.extract (BitVec.ofInt 32 v) = lowBits f.width (v >>> f.lsb)

/-- R101, R112: extract_signed is extract less `2^width` times the field's top bit; its range; extract is its low bits. -/
def Obligations.ExtractSignedIsTwosComplement : Prop :=
  ∀ (f : BitField) (w : Word),
    f.extractSigned w = (f.extract w : Int) - (2 : Int) ^ f.width * (if w.getLsbD f.msb then 1 else 0) ∧
    -(2 : Int) ^ (f.width - 1) ≤ f.extractSigned w ∧ f.extractSigned w ≤ (2 : Int) ^ (f.width - 1) - 1 ∧
    f.extract w = lowBits f.width (f.extractSigned w)

/-- R23: the low bits of an integer are its bitwise AND with the mask, in the range of n bits. -/
def Obligations.LowBitsIsMasking : Prop :=
  ∀ (n : Nat) (v : Int),
    (lowBits n v : Int) = Int.land v ((2 : Int) ^ n - 1) ∧ (lowBits n v : Int) = v % (2 : Int) ^ n ∧ lowBits n v < 2 ^ n

/-- R107: insert sets exactly the field. -/
def Obligations.InsertSetsExactlyTheField : Prop :=
  ∀ (f : BitField) (v : Int) (w : Word),
    f.extract (f.insert v w) = lowBits f.width v ∧
    (f.extract (f.insert v w) : Int) = Int.land v (f.fieldMask : Int) ∧
    f.insert v w &&& ~~~f.wordMask = w &&& ~~~f.wordMask

/-- R108, R110: re-inserting what was read changes nothing, and the last insert into a field wins. -/
def Obligations.ReinsertIsIdentityAndLastInsertWins : Prop :=
  ∀ (f : BitField) (w : Word) (u v : Int),
    f.insert (f.extract w) w = w ∧ f.insert v (f.insert u w) = f.insert v w

/-- R109: a value in the field's signed (unsigned) range reads back by extract_signed (extract). -/
def Obligations.InsertedValueReadsBack : Prop :=
  ∀ (f : BitField) (w : Word) (v : Int),
    ((-(2 : Int) ^ (f.width - 1) ≤ v ∧ v ≤ (2 : Int) ^ (f.width - 1) - 1) → f.extractSigned (f.insert v w) = v) ∧
    ((0 ≤ v ∧ v ≤ (2 : Int) ^ f.width - 1) → (f.extract (f.insert v w) : Int) = v)

/-- R111: inserts into fields with disjoint masks commute, and the one leaves the other's value alone. -/
def Obligations.DisjointFieldsCommute : Prop :=
  ∀ (f g : BitField) (u v : Int) (w : Word), f.wordMask &&& g.wordMask = 0 →
    f.insert u (g.insert v w) = g.insert v (f.insert u w) ∧ g.extract (f.insert u w) = g.extract w

/-- R106: inserting a negative value stores the bits of that value plus `2^width`. -/
def Obligations.NegativeInsertStoresUnsignedPattern : Prop :=
  ∀ (f : BitField) (v : Int) (w : Word), -(2 : Int) ^ (f.width - 1) ≤ v → v ≤ -1 →
    f.insert v w = f.insert (v + (2 : Int) ^ f.width) w

/-- R104, R45: with `IN_W >= W` the unit's ports carry the three operations, for every integer whose low IN_W bits stand on
`bf_value`, however large: the result depends on the value's low `width` bits alone. -/
def Obligations.UnitPortsCarryTheOperations : Prop :=
  ∀ (cfg : Config) (f : BitField) (v : Int) (w : Word), f.width ≤ cfg.inW →
    (bitfieldUnit cfg f w (BitVec.ofInt cfg.inW v)).bf_ins = f.insert v w ∧
    (bitfieldUnit cfg f w (BitVec.ofInt cfg.inW v)).bf_u.toNat = f.extract w ∧
    (bitfieldUnit cfg f w (BitVec.ofInt cfg.inW v)).bf_s.toInt = f.extractSigned w ∧
    f.insert v w = f.insert (lowBits f.width v) w

/-! ## 30_encoding.md and 41_codec.md -/

/-- R67, R69, R115: the field table passes construct, has the widths of R115 and the masks of R69, and tiles bits 0 to 30. -/
def Obligations.FieldTableTilesTheWord : Prop :=
  construct 26 30 = .ok fieldOpcode ∧ construct 22 25 = .ok fieldCond ∧ construct 18 21 = .ok fieldRt ∧
  construct 14 17 = .ok fieldRs1 ∧ construct 10 13 = .ok fieldRs2 ∧ construct 0 9 = .ok fieldOffset ∧
  codecFields.map BitField.wordMask =
    [0x7C000000, 0x03C00000, 0x003C0000, 0x0003C000, 0x00003C00, 0x000003FF] ∧
  codecFields.map BitField.width = [5, 4, 4, 4, 4, 10] ∧
  (0x80000000#32 :: codecFields.map BitField.wordMask).Pairwise (fun m m' => m &&& m' = 0) ∧
  (0x80000000#32 :: codecFields.map BitField.wordMask).foldl (fun m m' => m ||| m') 0 = 0xFFFFFFFF ∧
  ∀ i < 32, codecFields.countP (fun f => decide (f.lsb ≤ i ∧ i ≤ f.msb)) = if i = 31 then 0 else 1

/-- R66, R77: words written out bit by bit (reserved, opcode, condition, rt, rs1, rs2, offset) decode to the instructions they
stand for, one for each opcode, whatever conditions the instance recognises besides the word's own. -/
def Obligations.WrittenOutWordsDecode : Prop :=
  ∀ cfg : Config, cfg.condOk 15 = true →
    decode cfg 0b0_00000_1111_0000_0000_0000_0000000000#32 = .ok (.halt 15 0 0 0 0) ∧
    decode cfg 0b0_00001_1111_0100_0101_0110_1111111111#32 = .ok (.load 15 4 5 6 (-1)) ∧
    decode cfg 0b0_00010_1111_0111_1000_1001_1000000000#32 = .ok (.store 15 7 8 9 (-512)) ∧
    decode cfg 0b0_00011_1111_0001_0000_0000_0000001111#32 = .ok (.add 15 1 0 0 15) ∧
    decode cfg 0b1_00101_1111_0011_0010_0000_0000000101#32 = .ok (.sub 15 3 2 0 5) ∧
    decode cfg 0b0_00110_1111_0011_0011_0000_0000000010#32 = .ok (.mul 15 3 3 0 2) ∧
    decode cfg 0b0_00111_1111_1111_1111_1111_0111111111#32 = .ok (.div 15 15 15 15 511)

/-- R119, R120, R122: decode gives each field of the word, the opcode checked before the condition, and its ports show the
outcome. The field values are the word's slices. -/
def Obligations.DecodeReadsEveryField : Prop :=
  ∀ (cfg : Config) (w : Word),
    (((w.extractLsb' 26 5).toNat ∉ [0, 1, 2, 3, 5, 6, 7]) →
      decode cfg w = .error (.decode .opcode (w.extractLsb' 26 5).toNat) ∧
      (decoderPorts cfg w).dec_err = 2 ∧ (decoderPorts cfg w).dec_err_field = some 0) ∧
    (((w.extractLsb' 26 5).toNat ∈ [0, 1, 2, 3, 5, 6, 7]) → cfg.condOk (w.extractLsb' 22 4).toFin = false →
      decode cfg w = .error (.decode .condition (w.extractLsb' 22 4).toNat) ∧
      (decoderPorts cfg w).dec_err = 2 ∧ (decoderPorts cfg w).dec_err_field = some 1) ∧
    (((w.extractLsb' 26 5).toNat ∈ [0, 1, 2, 3, 5, 6, 7]) → cfg.condOk (w.extractLsb' 22 4).toFin = true →
      ∃ i, decode cfg w = .ok i ∧ i.op.ord = (w.extractLsb' 26 5).toNat ∧ i.cond = (w.extractLsb' 22 4).toFin ∧
        i.rt = (w.extractLsb' 18 4).toFin ∧ i.rs1 = (w.extractLsb' 14 4).toFin ∧ i.rs2 = (w.extractLsb' 10 4).toFin ∧
        i.off = (w.extractLsb' 0 10).toInt ∧ (decoderPorts cfg w).dec_err = 0 ∧
        (decoderPorts cfg w).data = some
          { dec_op := BitVec.ofNat 5 i.op.ord, dec_cond := BitVec.ofFin i.cond, dec_rt := BitVec.ofFin i.rt
            dec_rs1 := BitVec.ofFin i.rs1, dec_rs2 := BitVec.ofFin i.rs2
            dec_off := (w.extractLsb' 0 10).signExtend cfg.xlen })

/-- R74, R75: on a legal instance the port `dec_off` holds the decoded offset's value. -/
def Obligations.OffsetPortHoldsTheOffset : Prop :=
  ∀ (cfg : Config) (w : Word) (i : Instr) (d : DecData cfg.xlen), cfg.wf →
    decode cfg w = .ok i → (decoderPorts cfg w).data = some d →
    d.dec_off.toInt = i.off ∧ i.off = ((w.extractLsb' 0 10).toNat : Int) - 1024 * (if w.getLsbD 9 then 1 else 0) ∧
    -512 ≤ i.off ∧ i.off ≤ 511

/-- R81, R121: bit 31 is never read by decode and is always 0 from encode. -/
def Obligations.Bit31IsIgnoredAndWrittenZero : Prop :=
  (∀ (cfg : Config) (w : Word), decode cfg w = decode cfg (w &&& 0x7FFFFFFF)) ∧
  ∀ op cond rt rs1 rs2 off : Int, (encodeRaw op cond rt rs1 rs2 off).getLsbD 31 = false

/-- R85: two words decode to the same Instruction if and only if both are legal and they differ at most in bit 31. -/
def Obligations.SameInstructionIffSameLowBits : Prop :=
  ∀ (cfg : Config) (w w' : Word),
    (∃ i, decode cfg w = .ok i ∧ decode cfg w' = .ok i) ↔
      ((∃ i, decode cfg w = .ok i) ∧ (∃ i, decode cfg w' = .ok i) ∧ w &&& 0x7FFFFFFF = w' &&& 0x7FFFFFFF)

/-- R124: encode is the packed concatenation of the fields' low bits; for an Instruction, of its ordinal and fields. -/
def Obligations.EncodePacksLowBits : Prop :=
  (∀ i : Instr, encode i = encodeRaw i.op.ord i.cond.val i.rt.val i.rs1.val i.rs2.val i.off) ∧
  ∀ op cond rt rs1 rs2 off : Int,
    encodeRaw op cond rt rs1 rs2 off =
      (BitVec.ofNat 32 (lowBits 5 op) <<< 26) ||| (BitVec.ofNat 32 (lowBits 4 cond) <<< 22) |||
      (BitVec.ofNat 32 (lowBits 4 rt) <<< 18) ||| (BitVec.ofNat 32 (lowBits 4 rs1) <<< 14) |||
      (BitVec.ofNat 32 (lowBits 4 rs2) <<< 10) ||| BitVec.ofNat 32 (lowBits 10 off)

/-- R126: the six inserts may be done in any order. -/
def Obligations.EncodeInsertsInAnyOrder : Prop :=
  ∀ (op cond rt rs1 rs2 off : Int) (l : List (BitField × Int)),
    l.Perm [(fieldOpcode, op), (fieldCond, cond), (fieldRt, rt), (fieldRs1, rs1), (fieldRs2, rs2), (fieldOffset, off)] →
    l.foldl (fun w p => p.1.insert p.2 w) 0 = encodeRaw op cond rt rs1 rs2 off

/-- R118, R128, R47: the range check accepts exactly the raw values of the well-formed instructions, the port `enc_in_range` shows
it of the port values read as two's complement, and it leaves `enc_word` as it is. -/
def Obligations.InRangeAcceptsExactlyWellFormed : Prop :=
  ∀ (cfg : Config) (op cond rt rs1 rs2 off : Int),
    (inRangeRaw cfg op cond rt rs1 rs2 off = true ↔
      ∃ i : Instr, i.wellFormed cfg ∧ op = i.op.ord ∧ cond = i.cond.val ∧ rt = i.rt.val ∧ rs1 = i.rs1.val ∧
        rs2 = i.rs2.val ∧ off = i.off) ∧
    ∀ p : EncIn cfg.inW,
      (encoderPorts cfg p).enc_word =
        encodeRaw p.enc_op.toInt p.enc_cond.toInt p.enc_rt.toInt p.enc_rs1.toInt p.enc_rs2.toInt p.enc_off.toInt ∧
      (encoderPorts cfg p).enc_in_range =
        inRangeRaw cfg p.enc_op.toInt p.enc_cond.toInt p.enc_rt.toInt p.enc_rs1.toInt p.enc_rs2.toInt p.enc_off.toInt

/-- R17: the encoder's word does not depend on IN_W, so long as it is at least 10. -/
def Obligations.EncoderWordIndependentOfInputWidth : Prop :=
  ∀ (cfg : Config) (op cond rt rs1 rs2 off : Int), 10 ≤ cfg.inW →
    (encoderPorts cfg
      { enc_op := BitVec.ofInt cfg.inW op, enc_cond := BitVec.ofInt cfg.inW cond, enc_rt := BitVec.ofInt cfg.inW rt
        enc_rs1 := BitVec.ofInt cfg.inW rs1, enc_rs2 := BitVec.ofInt cfg.inW rs2
        enc_off := BitVec.ofInt cfg.inW off }).enc_word = encodeRaw op cond rt rs1 rs2 off

/-- R129: decoding the encoding of a well-formed instruction gives it back, every operand at every value. -/
def Obligations.DecodeOfEncodeIsTheInstruction : Prop :=
  ∀ (cfg : Config) (i : Instr), i.wellFormed cfg → decode cfg (encode i) = .ok i

/-- R130: encoding what a word decodes to gives the word with bit 31 cleared; what decode gives is well-formed. -/
def Obligations.EncodeOfDecodeIsTheWord : Prop :=
  ∀ (cfg : Config) (w : Word) (i : Instr), decode cfg w = .ok i →
    encode i = w &&& 0x7FFFFFFF ∧ (w.getLsbD 31 = false → encode i = w) ∧ i.wellFormed cfg

/-- R131: on any inputs, what the word decodes to has the inputs' low bits. -/
def Obligations.TruncatedRoundTrip : Prop :=
  ∀ (cfg : Config) (op cond rt rs1 rs2 off : Int) (i : Instr),
    decode cfg (encodeRaw op cond rt rs1 rs2 off) = .ok i →
    i.op.ord = lowBits 5 op ∧ i.cond.val = lowBits 4 cond ∧ i.rt.val = lowBits 4 rt ∧ i.rs1.val = lowBits 4 rs1 ∧
    i.rs2.val = lowBits 4 rs2 ∧ (-512 ≤ i.off ∧ i.off ≤ 511 ∧ i.off % 1024 = off % 1024)

/-- R132: an opcode or condition input that is no enumeration member encodes to a word decode rejects. -/
def Obligations.DecodeRejectsBadEncoderInputs : Prop :=
  ∀ (cfg : Config) (op cond rt rs1 rs2 off : Int),
    (lowBits 5 op = 4 ∨ 8 ≤ lowBits 5 op ∨ cfg.condOk (Fin.ofNat 16 (lowBits 4 cond)) = false) →
    ∃ fld raw, decode cfg (encodeRaw op cond rt rs1 rs2 off) = .error (.decode fld raw)

/-- R133: one input of encode changes only its own field's bits, and bits inside one field's mask change only that field of the
decoded Instruction, or (opcode, condition) turn the outcome into DecodeError. -/
def Obligations.FieldsAreIndependent : Prop :=
  (∀ op cond rt rs1 rs2 off v : Int,
    encodeRaw v cond rt rs1 rs2 off &&& ~~~fieldOpcode.wordMask = encodeRaw op cond rt rs1 rs2 off &&& ~~~fieldOpcode.wordMask ∧
    encodeRaw op v rt rs1 rs2 off &&& ~~~fieldCond.wordMask = encodeRaw op cond rt rs1 rs2 off &&& ~~~fieldCond.wordMask ∧
    encodeRaw op cond v rs1 rs2 off &&& ~~~fieldRt.wordMask = encodeRaw op cond rt rs1 rs2 off &&& ~~~fieldRt.wordMask ∧
    encodeRaw op cond rt v rs2 off &&& ~~~fieldRs1.wordMask = encodeRaw op cond rt rs1 rs2 off &&& ~~~fieldRs1.wordMask ∧
    encodeRaw op cond rt rs1 v off &&& ~~~fieldRs2.wordMask = encodeRaw op cond rt rs1 rs2 off &&& ~~~fieldRs2.wordMask ∧
    encodeRaw op cond rt rs1 rs2 v &&& ~~~fieldOffset.wordMask =
      encodeRaw op cond rt rs1 rs2 off &&& ~~~fieldOffset.wordMask) ∧
  ∀ (cfg : Config) (w w' : Word) (i : Instr), decode cfg w = .ok i →
    (w &&& ~~~fieldOpcode.wordMask = w' &&& ~~~fieldOpcode.wordMask →
      (∃ op, decode cfg w' = .ok (Instr.ofFields op i.cond i.rt i.rs1 i.rs2 i.off)) ∨
      ∃ raw, decode cfg w' = .error (.decode .opcode raw)) ∧
    (w &&& ~~~fieldCond.wordMask = w' &&& ~~~fieldCond.wordMask →
      (∃ c, decode cfg w' = .ok (Instr.ofFields i.op c i.rt i.rs1 i.rs2 i.off)) ∨
      ∃ raw, decode cfg w' = .error (.decode .condition raw)) ∧
    (w &&& ~~~fieldRt.wordMask = w' &&& ~~~fieldRt.wordMask →
      ∃ r, decode cfg w' = .ok (Instr.ofFields i.op i.cond r i.rs1 i.rs2 i.off)) ∧
    (w &&& ~~~fieldRs1.wordMask = w' &&& ~~~fieldRs1.wordMask →
      ∃ r, decode cfg w' = .ok (Instr.ofFields i.op i.cond i.rt r i.rs2 i.off)) ∧
    (w &&& ~~~fieldRs2.wordMask = w' &&& ~~~fieldRs2.wordMask →
      ∃ r, decode cfg w' = .ok (Instr.ofFields i.op i.cond i.rt i.rs1 r i.off)) ∧
    (w &&& ~~~fieldOffset.wordMask = w' &&& ~~~fieldOffset.wordMask →
      ∃ o, decode cfg w' = .ok (Instr.ofFields i.op i.cond i.rt i.rs1 i.rs2 o))

/-! ## 42_alu_dispatch.md -/

/-- R148: ADD delivers the exact sum and its sign; a sum that does not fit is OverflowError(3) under FAULT and the wrapped sum
under WRAP. -/
def Obligations.AluAddResult : Prop :=
  EncodedAs .add 0x0C000000 ∧
  ∀ (cfg : Config) (a b : BitVec cfg.xlen), cfg.wf →
    (FitsSigned cfg.xlen (a.toInt + b.toInt) →
      aluExec cfg.ovfPolicy 3 a b = .ok ⟨BitVec.ofInt cfg.xlen (a.toInt + b.toInt), cls (a.toInt + b.toInt)⟩ ∧
      aluPorts cfg 3 a b =
        ⟨some (BitVec.ofInt cfg.xlen (a.toInt + b.toInt), encCc (cls (a.toInt + b.toInt))), 0⟩) ∧
    (¬FitsSigned cfg.xlen (a.toInt + b.toInt) → cfg.ovfPolicy = .fault →
      aluExec cfg.ovfPolicy 3 a b = .error (.overflow 3) ∧ aluPorts cfg 3 a b = ⟨none, 5⟩) ∧
    (¬FitsSigned cfg.xlen (a.toInt + b.toInt) → cfg.ovfPolicy = .wrap →
      aluExec cfg.ovfPolicy 3 a b = .ok ⟨a + b, cls (a + b).toInt⟩ ∧
      aluPorts cfg 3 a b = ⟨some (a + b, encCc (cls (a + b).toInt)), 0⟩)

/-- R149: SUB, the same for the exact difference `a - b`. -/
def Obligations.AluSubResult : Prop :=
  EncodedAs .sub 0x14000000 ∧
  ∀ (cfg : Config) (a b : BitVec cfg.xlen), cfg.wf →
    (FitsSigned cfg.xlen (a.toInt - b.toInt) →
      aluExec cfg.ovfPolicy 5 a b = .ok ⟨BitVec.ofInt cfg.xlen (a.toInt - b.toInt), cls (a.toInt - b.toInt)⟩ ∧
      aluPorts cfg 5 a b =
        ⟨some (BitVec.ofInt cfg.xlen (a.toInt - b.toInt), encCc (cls (a.toInt - b.toInt))), 0⟩) ∧
    (¬FitsSigned cfg.xlen (a.toInt - b.toInt) → cfg.ovfPolicy = .fault →
      aluExec cfg.ovfPolicy 5 a b = .error (.overflow 5) ∧ aluPorts cfg 5 a b = ⟨none, 5⟩) ∧
    (¬FitsSigned cfg.xlen (a.toInt - b.toInt) → cfg.ovfPolicy = .wrap →
      aluExec cfg.ovfPolicy 5 a b = .ok ⟨a - b, cls (a - b).toInt⟩ ∧
      aluPorts cfg 5 a b = ⟨some (a - b, encCc (cls (a - b).toInt)), 0⟩)

/-- R150: MUL, the same for the exact product. -/
def Obligations.AluMulResult : Prop :=
  EncodedAs .mul 0x18000000 ∧
  ∀ (cfg : Config) (a b : BitVec cfg.xlen), cfg.wf →
    (FitsSigned cfg.xlen (a.toInt * b.toInt) →
      aluExec cfg.ovfPolicy 6 a b = .ok ⟨BitVec.ofInt cfg.xlen (a.toInt * b.toInt), cls (a.toInt * b.toInt)⟩ ∧
      aluPorts cfg 6 a b =
        ⟨some (BitVec.ofInt cfg.xlen (a.toInt * b.toInt), encCc (cls (a.toInt * b.toInt))), 0⟩) ∧
    (¬FitsSigned cfg.xlen (a.toInt * b.toInt) → cfg.ovfPolicy = .fault →
      aluExec cfg.ovfPolicy 6 a b = .error (.overflow 6) ∧ aluPorts cfg 6 a b = ⟨none, 5⟩) ∧
    (¬FitsSigned cfg.xlen (a.toInt * b.toInt) → cfg.ovfPolicy = .wrap →
      aluExec cfg.ovfPolicy 6 a b = .ok ⟨a * b, cls (a * b).toInt⟩ ∧
      aluPorts cfg 6 a b = ⟨some (a * b, encCc (cls (a * b).toInt)), 0⟩)

/-- R151: DIV rounds toward zero; a zero divisor is DivisionByZeroError; only the least value over -1 can overflow. -/
def Obligations.AluDivResult : Prop :=
  EncodedAs .div 0x1C000000 ∧
  ∀ (cfg : Config) (a b : BitVec cfg.xlen), cfg.wf →
    (b.toInt = 0 → aluExec cfg.ovfPolicy 7 a b = .error .divisionByZero ∧ aluPorts cfg 7 a b = ⟨none, 4⟩) ∧
    (b.toInt ≠ 0 → ¬(a.toInt = -(2 : Int) ^ (cfg.xlen - 1) ∧ b.toInt = -1) →
      aluExec cfg.ovfPolicy 7 a b = .ok ⟨BitVec.ofInt cfg.xlen (a.toInt.tdiv b.toInt), cls (a.toInt.tdiv b.toInt)⟩ ∧
      aluPorts cfg 7 a b =
        ⟨some (BitVec.ofInt cfg.xlen (a.toInt.tdiv b.toInt), encCc (cls (a.toInt.tdiv b.toInt))), 0⟩ ∧
      (BitVec.ofInt cfg.xlen (a.toInt.tdiv b.toInt)).toInt = a.toInt.tdiv b.toInt) ∧
    (a.toInt = -(2 : Int) ^ (cfg.xlen - 1) → b.toInt = -1 →
      (cfg.ovfPolicy = .fault →
        aluExec cfg.ovfPolicy 7 a b = .error (.overflow 7) ∧ aluPorts cfg 7 a b = ⟨none, 5⟩) ∧
      (cfg.ovfPolicy = .wrap →
        aluExec cfg.ovfPolicy 7 a b = .ok ⟨a, .neg⟩ ∧ aluPorts cfg 7 a b = ⟨some (a, 0b001), 0⟩))

/-- R155, R203: the ALU supports exactly the opcodes 3, 5, 6 and 7; every other opcode is UnsupportedOperationError
whatever the operands are, and those four never are. -/
def Obligations.AluSupportsExactlyFourOpcodes : Prop :=
  ∀ (xlen : Nat) (pol : OvfPolicy) (op : BitVec 5) (a b : BitVec xlen),
    (op.toNat ∉ [3, 5, 6, 7] → aluExec pol op a b = .error (.unsupported op)) ∧
    (op.toNat ∈ [3, 5, 6, 7] → ∀ o, aluExec pol op a b ≠ .error (.unsupported o))

/-- R144: a delivered result is the exact integer under FAULT, and is congruent to it modulo `2^XLEN` under either policy. -/
def Obligations.DeliveredResultIsExactOrWrapped : Prop :=
  ∀ (xlen : Nat) (pol : OvfPolicy) (op : BitVec 5) (a b : BitVec xlen) (out : AluOut xlen) (exact : Int), 11 ≤ xlen →
    aluExec pol op a b = .ok out →
    ((op = 3 ∧ exact = a.toInt + b.toInt) ∨ (op = 5 ∧ exact = a.toInt - b.toInt) ∨ (op = 6 ∧ exact = a.toInt * b.toInt) ∨
      (op = 7 ∧ exact = a.toInt.tdiv b.toInt)) →
    (pol = .fault → out.result.toInt = exact) ∧ out.result.toInt % (2 : Int) ^ xlen = exact % (2 : Int) ^ xlen

/-- R145, R146: the condition is the sign of the delivered result, one-hot on the port. -/
def Obligations.ConditionIsTheSignOfTheResult : Prop :=
  ∀ (cfg : Config) (op : BitVec 5) (a b : BitVec cfg.xlen) (out : AluOut cfg.xlen), cfg.wf →
    aluExec cfg.ovfPolicy op a b = .ok out →
    (out.cond = .neg ↔ out.result.toInt < 0) ∧ (out.cond = .zero ↔ out.result.toInt = 0) ∧
    (out.cond = .pos ↔ out.result.toInt > 0) ∧
    (aluPorts cfg op a b).data = some (out.result,
      if out.result.toInt < 0 then 0b001 else if out.result.toInt = 0 then 0b010 else 0b100)

/-- R157: the quotient and its condition at every sign combination. -/
def Obligations.QuotientSigns : Prop :=
  ∀ a b : Int,
    (a > 0 → b > 0 → tdiv a b = a / b ∧ tdiv a b ≥ 0 ∧ cls (tdiv a b) = if a ≥ b then .pos else .zero) ∧
    (a < 0 → b > 0 → tdiv a b = -(-a / b) ∧ tdiv a b ≤ 0 ∧ cls (tdiv a b) = if -a ≥ b then .neg else .zero) ∧
    (a > 0 → b < 0 → tdiv a b = -(a / -b) ∧ tdiv a b ≤ 0 ∧ cls (tdiv a b) = if a ≥ -b then .neg else .zero) ∧
    (a < 0 → b < 0 → tdiv a b = -a / -b ∧ tdiv a b ≥ 0 ∧ cls (tdiv a b) = if -a ≥ -b then .pos else .zero) ∧
    (a = 0 → b ≠ 0 → tdiv a b = 0 ∧ cls (tdiv a b) = .zero) ∧
    aluDiv a 0 = .error .divisionByZero

/-- R160: both operands equal. -/
def Obligations.EqualOperands : Prop :=
  ∀ (xlen : Nat) (pol : OvfPolicy) (a : BitVec xlen), 11 ≤ xlen →
    aluExec pol 5 a a = .ok ⟨0, .zero⟩ ∧
    (a.toInt ≠ 0 → aluExec pol 7 a a = .ok ⟨1, .pos⟩) ∧
    (FitsSigned xlen (2 * a.toInt) → aluExec pol 3 a a = .ok ⟨BitVec.ofInt xlen (2 * a.toInt), cls (2 * a.toInt)⟩) ∧
    (FitsSigned xlen (a.toInt ^ 2) → aluExec pol 6 a a = .ok ⟨BitVec.ofInt xlen (a.toInt ^ 2), cls (a.toInt ^ 2)⟩)

/-! ## 60_exceptions.md -/

/-- R200, R206, R209: each operation raises only its own kinds, the ports show their codes, and there is data exactly when the
error port is 0. -/
def Obligations.EachOperationRaisesItsOwnErrors : Prop :=
  (∀ (lsb msb : Int) (e : Err), construct lsb msb = .error e → e = .range lsb msb) ∧
  (∀ (cfg : Config) (w : Word) (e : Err), decode cfg w = .error e → ∃ fld raw, e = .decode fld raw) ∧
  (∀ (cfg : Config) (op : BitVec 5) (a b : BitVec cfg.xlen) (e : Err), aluExec cfg.ovfPolicy op a b = .error e →
    (e = .unsupported op ∧ (aluPorts cfg op a b).alu_err = 3) ∨
    (e = .divisionByZero ∧ op = 7 ∧ (aluPorts cfg op a b).alu_err = 4) ∨
    (e = .overflow op ∧ cfg.ovfPolicy = .fault ∧ (aluPorts cfg op a b).alu_err = 5)) ∧
  (∀ (cfg : Config) (w : Word),
    ((decoderPorts cfg w).dec_err = 0 ∨ (decoderPorts cfg w).dec_err = 2) ∧
    ((decoderPorts cfg w).data.isSome ↔ (decoderPorts cfg w).dec_err = 0) ∧
    ((decoderPorts cfg w).dec_err_field.isSome ↔ (decoderPorts cfg w).dec_err = 2)) ∧
  ∀ (cfg : Config) (op : BitVec 5) (a b : BitVec cfg.xlen),
    (aluPorts cfg op a b).alu_err ∈ [0, 3, 4, 5] ∧
    ((aluPorts cfg op a b).data.isSome ↔ (aluPorts cfg op a b).alu_err = 0)

/-! ## 43_reference_driver.md: the step -/

/-- R182, R227: a launch state, and the state after reset is one. -/
def Obligations.LaunchStateFields : Prop :=
  (∀ (cfg : Config) (prog : List Word) (x : RegFile cfg.xlen),
    (State.launch cfg prog x).idx = 0 ∧ (State.launch cfg prog x).cc = none ∧
    (State.launch cfg prog x).status = .running ∧ (State.launch cfg prog x).prog = prog ∧
    (State.launch cfg prog x).cfg = cfg ∧ (State.launch cfg prog x).x = x) ∧
  ∃ cfg prog x, State.reset = State.launch cfg prog x

/-- R183: when the word at `idx` decodes, a step of a run that goes on is exec of the instruction at that state, and nothing is
added around it (exec itself advances `idx`). -/
def Obligations.StepRunsTheDecodedInstruction : Prop :=
  ∀ (s : State) (w : Word) (i : Instr),
    s.status = .running → s.prog[s.idx]? = some w → decode s.cfg w = .ok i → step s = exec i s

/-- R183, R189: the end of the program is DONE; a word that does not decode is ERROR with decode's own error; both leave all else
as it was; and after DONE or ERROR no step is taken. -/
def Obligations.StepEndsTheRun : Prop :=
  ∀ s : State,
    (s.status = .running → s.idx = s.prog.length → step s = .next { s with status := .done }) ∧
    (∀ w e, s.status = .running → s.prog[s.idx]? = some w → decode s.cfg w = .error e →
      step s = .next { s with status := .error (.block e) }) ∧
    (s.status = .done → step s = .fault .runEnded) ∧
    (∀ e, s.status = .error e → step s = .fault .runEnded)

/-- The placed word is the very next one run (log 3): the host's way to run one instruction. -/
def Obligations.PlacedWordRunsNext : Prop :=
  ∀ (s : State) (nbits w : Nat) (i : Instr), decode s.cfg (tableWord nbits w) = .ok i →
    step (s.withFetchWord nbits w) = exec i (s.withFetchWord nbits w)

/-- R184, R187: when exec of the operands `x[rs1]` and `x[rs2] + off` succeeds, its result goes to `rt`, its condition to `cc`, and
`idx` advances by 1; both operands are those of the old state, so `rt` may be a source. -/
def Obligations.SuccessfulExecIsWrittenBack : Prop :=
  ∀ (s : State) (i : Instr) (a v b : BitVec s.cfg.xlen) (out : AluOut s.cfg.xlen),
    s.readReg i.rs1 = some a → s.readReg i.rs2 = some v →
    ((FitsSigned s.cfg.xlen (v.toInt + i.off) ∧ b = BitVec.ofInt s.cfg.xlen (v.toInt + i.off)) ∨
      (0 < s.cfg.xlen ∧ s.cfg.ovfPolicy = .wrap ∧ b = v + BitVec.ofInt s.cfg.xlen i.off)) →
    aluExec s.cfg.ovfPolicy (BitVec.ofNat 5 i.op.ord) a b = .ok out →
    exec i s = .next
      { s with x := s.x.set i.rt.val (some out.result), cc := some out.cond, idx := s.idx + 1 }

/-- R148, R149, R150, R184, R187 through R183: on written sources, when operand 2 and the result fit, ADD, SUB and MUL write the
exact result to `rt` and its sign to `cc` and advance `idx`, for every choice of registers (equal ones too). -/
def Obligations.AddSubMulWriteTheExactResult : Prop :=
  ∀ (s : State) (c : Fin 16) (rt rs1 rs2 : Reg) (off : Int) (a v : BitVec s.cfg.xlen), s.cfg.wf →
    s.readReg rs1 = some a → s.readReg rs2 = some v → FitsSigned s.cfg.xlen (v.toInt + off) →
    (FitsSigned s.cfg.xlen (a.toInt + (v.toInt + off)) →
      exec (.add c rt rs1 rs2 off) s = .next
        { s with x := s.x.set rt.val (some (BitVec.ofInt s.cfg.xlen (a.toInt + (v.toInt + off)))),
                 cc := some (cls (a.toInt + (v.toInt + off))), idx := s.idx + 1 }) ∧
    (FitsSigned s.cfg.xlen (a.toInt - (v.toInt + off)) →
      exec (.sub c rt rs1 rs2 off) s = .next
        { s with x := s.x.set rt.val (some (BitVec.ofInt s.cfg.xlen (a.toInt - (v.toInt + off)))),
                 cc := some (cls (a.toInt - (v.toInt + off))), idx := s.idx + 1 }) ∧
    (FitsSigned s.cfg.xlen (a.toInt * (v.toInt + off)) →
      exec (.mul c rt rs1 rs2 off) s = .next
        { s with x := s.x.set rt.val (some (BitVec.ofInt s.cfg.xlen (a.toInt * (v.toInt + off)))),
                 cc := some (cls (a.toInt * (v.toInt + off))), idx := s.idx + 1 })

/-- R151, R184, R187 through R183: DIV with a nonzero operand 2, quotient toward zero; with a zero operand 2 the run ends in
DivisionByZeroError and nothing else changes. -/
def Obligations.DivWritesTheTruncatedQuotient : Prop :=
  ∀ (s : State) (c : Fin 16) (rt rs1 rs2 : Reg) (off : Int) (a v : BitVec s.cfg.xlen), s.cfg.wf →
    s.readReg rs1 = some a → s.readReg rs2 = some v → FitsSigned s.cfg.xlen (v.toInt + off) →
    (v.toInt + off ≠ 0 → ¬(a.toInt = -(2 : Int) ^ (s.cfg.xlen - 1) ∧ v.toInt + off = -1) →
      exec (.div c rt rs1 rs2 off) s = .next
        { s with x := s.x.set rt.val (some (BitVec.ofInt s.cfg.xlen (a.toInt.tdiv (v.toInt + off)))),
                 cc := some (cls (a.toInt.tdiv (v.toInt + off))), idx := s.idx + 1 }) ∧
    (v.toInt + off = 0 →
      exec (.div c rt rs1 rs2 off) s = .next { s with status := .error (.block .divisionByZero) })

/-- R144, R145, R148 to R151, R184, R185, R187 under WRAP: on written sources the four instructions complete, on XLEN-bit values
that wrap, but for DIV by zero, which ends the run in DivisionByZeroError and changes nothing else (R151, R189). -/
def Obligations.ArithmeticWrapsUnderWrap : Prop :=
  ∀ (s : State) (c : Fin 16) (rt rs1 rs2 : Reg) (off : Int) (a v b : BitVec s.cfg.xlen), s.cfg.wf →
    s.cfg.ovfPolicy = .wrap → s.readReg rs1 = some a → s.readReg rs2 = some v → b = v + BitVec.ofInt s.cfg.xlen off →
    exec (.add c rt rs1 rs2 off) s = .next
      { s with x := s.x.set rt.val (some (a + b)), cc := some (cls (a + b).toInt), idx := s.idx + 1 } ∧
    exec (.sub c rt rs1 rs2 off) s = .next
      { s with x := s.x.set rt.val (some (a - b)), cc := some (cls (a - b).toInt), idx := s.idx + 1 } ∧
    exec (.mul c rt rs1 rs2 off) s = .next
      { s with x := s.x.set rt.val (some (a * b)), cc := some (cls (a * b).toInt), idx := s.idx + 1 } ∧
    (b ≠ 0 → exec (.div c rt rs1 rs2 off) s = .next
      { s with x := s.x.set rt.val (some (a.sdiv b)), cc := some (cls (a.sdiv b).toInt), idx := s.idx + 1 }) ∧
    (b = 0 → exec (.div c rt rs1 rs2 off) s = .next { s with status := .error (.block .divisionByZero) })

/-- R205, R189 under FAULT: a result that does not fit ends the run in OverflowError of the opcode and changes nothing else. -/
def Obligations.ResultOverflowEndsTheRun : Prop :=
  ∀ (s : State) (c : Fin 16) (rt rs1 rs2 : Reg) (off : Int) (a v : BitVec s.cfg.xlen), s.cfg.wf →
    s.cfg.ovfPolicy = .fault → s.readReg rs1 = some a → s.readReg rs2 = some v → FitsSigned s.cfg.xlen (v.toInt + off) →
    (¬FitsSigned s.cfg.xlen (a.toInt + (v.toInt + off)) →
      exec (.add c rt rs1 rs2 off) s = .next { s with status := .error (.block (.overflow 3)) }) ∧
    (¬FitsSigned s.cfg.xlen (a.toInt - (v.toInt + off)) →
      exec (.sub c rt rs1 rs2 off) s = .next { s with status := .error (.block (.overflow 5)) }) ∧
    (¬FitsSigned s.cfg.xlen (a.toInt * (v.toInt + off)) →
      exec (.mul c rt rs1 rs2 off) s = .next { s with status := .error (.block (.overflow 6)) }) ∧
    (a.toInt = -(2 : Int) ^ (s.cfg.xlen - 1) → v.toInt + off = -1 →
      exec (.div c rt rs1 rs2 off) s = .next { s with status := .error (.block (.overflow 7)) })

/-- R185, R183 under FAULT: an operand 2 that does not fit ends the run in OverflowError(OPERAND), whatever the instruction. -/
def Obligations.OperandOverflowEndsTheRun : Prop :=
  ∀ (s : State) (i : Instr) (a v : BitVec s.cfg.xlen), s.cfg.ovfPolicy = .fault →
    s.readReg i.rs1 = some a → s.readReg i.rs2 = some v → ¬FitsSigned s.cfg.xlen (v.toInt + i.off) →
    exec i s = .next { s with status := .error .operandOverflow }

/-- R190, R183: a read of an unwritten register ends the run in UnwrittenRegister, `rs1` checked first, whatever the
instruction. -/
def Obligations.UnwrittenSourceEndsTheRun : Prop :=
  ∀ (s : State) (i : Instr),
    (s.readReg i.rs1 = none → exec i s = .next { s with status := .error (.unwrittenRegister i.rs1) }) ∧
    (s.readReg i.rs1 ≠ none → s.readReg i.rs2 = none →
      exec i s = .next { s with status := .error (.unwrittenRegister i.rs2) })

/-- R186, R152, R153, R154: on written sources and an operand 2 that can be formed, HALT, LOAD and STORE end the run in
UnsupportedOperationError of their ordinal, and change nothing else. -/
def Obligations.HaltLoadStoreEndTheRun : Prop :=
  ∀ (s : State) (c : Fin 16) (rt rs1 rs2 : Reg) (off : Int) (a v : BitVec s.cfg.xlen),
    s.readReg rs1 = some a → s.readReg rs2 = some v →
    (s.cfg.ovfPolicy = .wrap ∨ FitsSigned s.cfg.xlen (v.toInt + off)) →
    exec (.halt c rt rs1 rs2 off) s = .next { s with status := .error (.block (.unsupported 0)) } ∧
    exec (.load c rt rs1 rs2 off) s = .next { s with status := .error (.block (.unsupported 1)) } ∧
    exec (.store c rt rs1 rs2 off) s = .next { s with status := .error (.block (.unsupported 2)) }

/-- The frame of ADD, SUB, MUL and DIV: either the run ends and only `status` changes, or `status` stays, `idx` advances and no
register but `rt` changes. Program and configuration never change. -/
def Obligations.ArithmeticFrame : Prop :=
  ∀ (s t : State) (i : Instr), i.op ∈ [Opcode.add, Opcode.sub, Opcode.mul, Opcode.div] → exec i s = .next t →
    t.cfg = s.cfg ∧ t.prog = s.prog ∧ (∀ j, j ≠ i.rt → t.regValue j = s.regValue j) ∧
    ((∃ e, t = { s with status := .error e }) ∨
      (t.status = s.status ∧ t.idx = s.idx + 1 ∧ t.cc ≠ none ∧ t.regValue i.rt ≠ none))

/-- The frame of HALT, LOAD and STORE: nothing but `status` changes, and it becomes an error. -/
def Obligations.HaltLoadStoreFrame : Prop :=
  ∀ (s t : State) (i : Instr), i.op ∈ [Opcode.halt, Opcode.load, Opcode.store] → exec i s = .next t →
    ∃ e, t = { s with status := .error e }

/-- R188: the condition field guards nothing; two instructions that differ in it alone do the same. -/
def Obligations.ConditionFieldIsIgnored : Prop :=
  ∀ (op : Opcode) (c c' : Fin 16) (rt rs1 rs2 : Reg) (off : Int) (s : State),
    exec (Instr.ofFields op c rt rs1 rs2 off) s = exec (Instr.ofFields op c' rt rs1 rs2 off) s

/-- Every instruction answers a next state: no meaning stops. -/
def Obligations.EveryInstructionAnswersNext : Prop :=
  ∀ (i : Instr) (s : State), ∃ t, exec i s = .next t

/-- R187, R189: a step either advances `idx`, sets `cc` and goes on, or ends the run and changes nothing but `status`. -/
def Obligations.StepAdvancesOrEndsTheRun : Prop :=
  ∀ s t : State, step s = .next t →
    s.status = .running ∧
    ((t.status = .running ∧ t.idx = s.idx + 1 ∧ t.cc ≠ none) ∨ (t.status ≠ .running ∧ t = { s with status := t.status }))

/-- R181, R35: no step writes the program or the configuration. -/
def Obligations.StepKeepsProgramAndConfig : Prop :=
  ∀ s t : State, step s = .next t → t.prog = s.prog ∧ t.cfg = s.cfg

/-- R192: no register is special; renaming the registers of the state and of the instruction by any permutation renames the
outcome. -/
def Obligations.RegistersAreInterchangeable : Prop :=
  ∀ (p : Equiv.Perm Reg) (i : Instr) (s : State),
    ∃ t, exec i s = .next t ∧ exec (renameInstr p i) (s.rename p) = .next (t.rename p)

/-- A step reads none of BYTE_ORDER (R18), LAT (R233), IN_W and COND_ALWAYS: other values of these give the same step. Of the last
two it is an inference (log 9) from what R183's step reads: R19's table, decode's inputs (R123) and exec's (R159). No step is
refused. -/
def Obligations.StepIgnoresUnreadParameters : Prop :=
  ∀ (u : Unread) (s : State),
    (∀ t, step s = .next t → step (s.withUnread u) = .next (t.withUnread u)) ∧
    (∀ f, step s = .fault f → step (s.withUnread u) = .fault f) ∧
    ∀ r, step s ≠ .refused r

/-! ## Invariants and the end of every run -/

/-- Every launch of a legal instance, and so the state after reset, is a good state. The values State.reset chooses for the OPEN
parameters are the model's (log 1); the statement needs only that they are legal. -/
def Obligations.LaunchIsGood : Prop :=
  (∀ (cfg : Config) (prog : List Word) (x : RegFile cfg.xlen),
    cfg.wf → (State.launch cfg prog x).Inv) ∧ State.reset.Inv

/-- Every step keeps the good states. -/
def Obligations.StepKeepsGoodStates : Prop :=
  ∀ s t : State, s.Inv → step s = .next t → t.Inv

/-- R193: every run ends: from any running state with `idx <= n` at most `n - idx + 1` steps reach DONE or ERROR. -/
def Obligations.EveryRunEnds : Prop :=
  ∀ s : State, s.status = .running → s.idx ≤ s.prog.length →
    ∃ k t, k ≤ s.prog.length - s.idx + 1 ∧ reachesIn k s t ∧ (t.status = .done ∨ ∃ e, t.status = .error e)
end

