-- ==== Sys2Proof/Laws/Bits.lean ====
section
/-!
SUPPORT. What the bit operations of Decode.lean do, bit by bit: later proofs use these and do not unfold them.
-/
namespace Sys2Proof

theorem lowBits_eq_toNat_ofInt (n : Nat) (v : Int) : lowBits n v = (BitVec.ofInt n v).toNat := by
  simp [lowBits]

theorem lowBits_lt (n : Nat) (v : Int) : lowBits n v < 2 ^ n := by
  rw [lowBits_eq_toNat_ofInt]; exact (BitVec.ofInt n v).isLt

theorem lowBits_cast (n : Nat) (v : Int) : (lowBits n v : Int) = v % (2 : Int) ^ n := by
  have h : (0 : Int) < (2 : Int) ^ n := by positivity
  simp only [lowBits, Nat.cast_pow, Nat.cast_ofNat]
  exact Int.toNat_of_nonneg (Int.emod_nonneg _ (ne_of_gt h))

/-- Bit `i` of the n-bit two's complement of an integer is the integer's own. -/
theorem getLsbD_ofInt (n : Nat) (v : Int) (i : Nat) :
    (BitVec.ofInt n v).getLsbD i = (decide (i < n) && v.testBit i) := by
  cases v with
  | ofNat m => simp [Int.testBit, BitVec.getLsbD_ofNat]
  | negSucc m =>
    simp only [Int.testBit, BitVec.ofInt_negSucc_eq_not_ofNat, BitVec.getLsbD_not, BitVec.getLsbD_ofNat]
    cases decide (i < n) <;> simp

theorem lowBits_testBit (n : Nat) (v : Int) (i : Nat) : (lowBits n v).testBit i = (BitVec.ofInt n v).getLsbD i := by
  rw [lowBits_eq_toNat_ofInt]; rfl

theorem lowBits_natCast {n u : Nat} (h : u < 2 ^ n) : lowBits n (u : Int) = u := by
  have := lowBits_cast n u
  rw [Int.emod_eq_of_lt (by positivity) (by exact_mod_cast h)] at this
  exact_mod_cast this

/-- A pattern's two's-complement value is that of the bit vector with the pattern. -/
theorem signedOf_eq_toInt {n u : Nat} (hn : 0 < n) (hu : u < 2 ^ n) : signedOf n u = (BitVec.ofNat n u).toInt := by
  have hm : (BitVec.ofNat n u).msb = u.testBit (n - 1) := by
    rw [BitVec.msb_eq_getLsbD_last, BitVec.getLsbD_ofNat]; simp [hn]
  rw [BitVec.toInt_eq_msb_cond, hm, signedOf]
  simp [Nat.mod_eq_of_lt hu]

/-- The signed reading of the low bits of an integer is the bit vector's. -/
theorem signedOf_lowBits {n : Nat} (v : Int) (hn : 0 < n) : signedOf n (lowBits n v) = (BitVec.ofInt n v).toInt := by
  rw [signedOf_eq_toInt hn (lowBits_lt n v), lowBits_eq_toNat_ofInt, BitVec.ofNat_toNat, BitVec.setWidth_eq]

namespace BitField

theorem width_pos (f : BitField) : 0 < f.width := by simp [width]

theorem lsb_add_width (f : BitField) : f.lsb + f.width = f.msb + 1 := by
  have := f.ordered
  simp only [width]; omega

theorem width_le (f : BitField) : f.width ≤ 32 := by
  have := f.lsb_add_width; have := f.inWord; omega

theorem fieldMask_testBit (f : BitField) (i : Nat) : f.fieldMask.testBit i = decide (i < f.width) :=
  Nat.testBit_two_pow_sub_one _ _

theorem fieldMask_lt (f : BitField) : f.fieldMask < 2 ^ 32 := by
  have := Nat.pow_le_pow_right (n := 2) (by omega) f.width_le
  have : 0 < 2 ^ f.width := by positivity
  simp only [fieldMask]; omega

theorem getLsbD_wordMask (f : BitField) {i : Nat} (h : i < 32) :
    f.wordMask.getLsbD i = decide (f.lsb ≤ i ∧ i ≤ f.msb) := by
  have hw := f.lsb_add_width
  have hb : (BitVec.ofNat 32 f.fieldMask).getLsbD (i - f.lsb) = decide (i - f.lsb < f.width) := by
    rw [BitVec.getLsbD_ofNat, fieldMask_testBit]; simp; omega
  simp only [wordMask, BitVec.getLsbD_shiftLeft, hb, h, decide_true, Bool.true_and, Bool.decide_and]
  by_cases h1 : f.lsb ≤ i
  · have : ¬ i < f.lsb := by omega
    simp only [this, decide_false, Bool.not_false, Bool.true_and, h1, decide_true, decide_eq_decide]; omega
  · have : i < f.lsb := by omega
    simp [this]

/-- Bit `i` of what extract returns is bit `lsb + i` of the word, inside the field. -/
theorem extract_testBit (f : BitField) (w : Word) (i : Nat) :
    (f.extract w).testBit i = (decide (i < f.width) && w.getLsbD (f.lsb + i)) := by
  simp only [extract, Nat.testBit_and, Nat.testBit_shiftRight, fieldMask_testBit]
  rw [Bool.and_comm]; rfl

theorem extract_lt (f : BitField) (w : Word) : f.extract w < 2 ^ f.width := by
  apply Nat.lt_of_le_of_lt Nat.and_le_right
  have : 0 < 2 ^ f.width := by positivity
  simp only [fieldMask]; omega

/-- extract is the slice of the word at the field. -/
theorem extract_eq_slice (f : BitField) (w : Word) : f.extract w = (w.extractLsb' f.lsb f.width).toNat := by
  apply Nat.eq_of_testBit_eq
  intro i
  rw [extract_testBit]
  change _ = (w.extractLsb' f.lsb f.width).getLsbD i
  simp

theorem extractSigned_eq_slice (f : BitField) (w : Word) :
    f.extractSigned w = (w.extractLsb' f.lsb f.width).toInt := by
  rw [extractSigned, signedOf_eq_toInt f.width_pos (f.extract_lt w), extract_eq_slice, BitVec.ofNat_toNat,
    BitVec.setWidth_eq]

/-- Bit `i` of an inserted word: the value's bit inside the field, the word's outside. -/
theorem getLsbD_insert (f : BitField) (v : Int) (w : Word) {i : Nat} (h : i < 32) :
    (f.insert v w).getLsbD i =
      if f.lsb ≤ i ∧ i ≤ f.msb then (BitVec.ofInt f.width v).getLsbD (i - f.lsb) else w.getLsbD i := by
  have hw := f.lsb_add_width
  have hb : (BitVec.ofNat 32 (lowBits f.width v)).getLsbD (i - f.lsb) = (BitVec.ofInt f.width v).getLsbD (i - f.lsb) := by
    rw [BitVec.getLsbD_ofNat, lowBits_testBit]; simp; omega
  simp only [insert, BitVec.getLsbD_or, BitVec.getLsbD_and, BitVec.getLsbD_not, getLsbD_wordMask f h,
    BitVec.getLsbD_shiftLeft, hb, h, decide_true, Bool.true_and]
  by_cases h1 : f.lsb ≤ i ∧ i ≤ f.msb
  · simp [h1]
  · simp only [h1, decide_false, Bool.not_false, Bool.and_true, if_false]
    by_cases h2 : i < f.lsb
    · simp [h2]
    · rw [BitVec.getLsbD_of_ge _ (i - f.lsb) (by omega)]; simp

theorem index_val (f : BitField) (w : Word) (h : f.width = 4) : (f.index w).val = f.extract w := by
  have := f.extract_lt w
  rw [h] at this
  simp only [index, Fin.ofNat]
  exact Nat.mod_eq_of_lt this

end BitField

end Sys2Proof
end

