-- ==== Sys2Proof/Laws/State.lean ====
section
/-!
SUPPORT. One lemma per field per update of the state, true by rfl, and the register file under a write-back.
-/
namespace Sys2Proof.Machine

variable (s : State)

@[simp] theorem writeBack_cfg (rt : Reg) (r : BitVec s.cfg.xlen) (c : Cc) : (s.writeBack rt r c).cfg = s.cfg := rfl
@[simp] theorem writeBack_prog (rt : Reg) (r : BitVec s.cfg.xlen) (c : Cc) : (s.writeBack rt r c).prog = s.prog := rfl
@[simp] theorem writeBack_idx (rt : Reg) (r : BitVec s.cfg.xlen) (c : Cc) : (s.writeBack rt r c).idx = s.idx + 1 := rfl
@[simp] theorem writeBack_x (rt : Reg) (r : BitVec s.cfg.xlen) (c : Cc) :
    (s.writeBack rt r c).x = s.x.set rt.val (some r) := rfl
@[simp] theorem writeBack_cc (rt : Reg) (r : BitVec s.cfg.xlen) (c : Cc) : (s.writeBack rt r c).cc = some c := rfl
@[simp] theorem writeBack_status (rt : Reg) (r : BitVec s.cfg.xlen) (c : Cc) :
    (s.writeBack rt r c).status = s.status := rfl

@[simp] theorem raise_cfg (e : RunErr) : (s.raise e).cfg = s.cfg := rfl
@[simp] theorem raise_prog (e : RunErr) : (s.raise e).prog = s.prog := rfl
@[simp] theorem raise_idx (e : RunErr) : (s.raise e).idx = s.idx := rfl
@[simp] theorem raise_x (e : RunErr) : (s.raise e).x = s.x := rfl
@[simp] theorem raise_cc (e : RunErr) : (s.raise e).cc = s.cc := rfl
@[simp] theorem raise_status (e : RunErr) : (s.raise e).status = .error e := rfl

@[simp] theorem finish_cfg : s.finish.cfg = s.cfg := rfl
@[simp] theorem finish_prog : s.finish.prog = s.prog := rfl
@[simp] theorem finish_idx : s.finish.idx = s.idx := rfl
@[simp] theorem finish_x : s.finish.x = s.x := rfl
@[simp] theorem finish_cc : s.finish.cc = s.cc := rfl
@[simp] theorem finish_status : s.finish.status = .done := rfl

@[simp] theorem withFetchWord_cfg (n w : Nat) : (s.withFetchWord n w).cfg = s.cfg := rfl
@[simp] theorem withFetchWord_prog (n w : Nat) :
    (s.withFetchWord n w).prog = placeWord s.prog s.idx (tableWord n w) := rfl
@[simp] theorem withFetchWord_idx (n w : Nat) : (s.withFetchWord n w).idx = s.idx := rfl
@[simp] theorem withFetchWord_x (n w : Nat) : (s.withFetchWord n w).x = s.x := rfl
@[simp] theorem withFetchWord_cc (n w : Nat) : (s.withFetchWord n w).cc = s.cc := rfl
@[simp] theorem withFetchWord_status (n w : Nat) : (s.withFetchWord n w).status = .running := rfl

@[simp] theorem readReg_raise (e : RunErr) (j : Reg) : (s.raise e).readReg j = s.readReg j := rfl
@[simp] theorem regValue_raise (e : RunErr) (j : Reg) : (s.raise e).regValue j = s.regValue j := rfl

/-- The written register reads as the result. -/
@[simp] theorem readReg_writeBack_same (rt : Reg) (r : BitVec s.cfg.xlen) (c : Cc) :
    (s.writeBack rt r c).readReg rt = some r := by
  change (s.x.set rt.val (some r))[rt.val] = some r
  exact Vector.getElem_set_self _

/-- Every other register reads as before. -/
theorem readReg_writeBack_of_ne (rt j : Reg) (r : BitVec s.cfg.xlen) (c : Cc) (h : j ≠ rt) :
    (s.writeBack rt r c).readReg j = s.readReg j := by
  change (s.x.set rt.val (some r))[j.val] = s.x[j.val]
  exact Vector.getElem_set_ne _ _ (fun e => h (Fin.ext e.symm))

/-- The same of the signed values, which compare across states. -/
theorem regValue_writeBack_of_ne (rt j : Reg) (r : BitVec s.cfg.xlen) (c : Cc) (h : j ≠ rt) :
    (s.writeBack rt r c).regValue j = s.regValue j :=
  congrArg (Option.map BitVec.toInt) (readReg_writeBack_of_ne s rt j r c h)

end Sys2Proof.Machine
end

