-- ==== Sys2Proof/Laws/Ops.lean ====
section
/-!
SUPPORT. One spec lemma per shared operation: what it can answer, said once. Later proofs cite these and do not unfold the
operations.
-/
namespace Sys2Proof.Machine

/-! ## Representation in XLEN bits -/

theorem fits_iff (n : Nat) (r : Int) : fits n r = true ↔ FitsSigned n r := by simp [fits]

theorem deliver_of_fits {xlen : Nat} (pol : OvfPolicy) {r : Int} (h : FitsSigned xlen r) :
    deliver xlen pol r = some r := by
  simp [deliver, (fits_iff _ _).2 h]

theorem deliver_fault {xlen : Nat} {r : Int} (h : ¬FitsSigned xlen r) : deliver xlen .fault r = none := by
  have h' : fits xlen r = false := by rw [← Bool.not_eq_true, fits_iff]; exact h
  simp [deliver, h']

/-- The bit vector of a value in range has that value. -/
theorem toInt_ofInt_of_fits {n : Nat} {r : Int} (hn : 0 < n) (h : FitsSigned n r) : (BitVec.ofInt n r).toInt = r :=
  BitVec.toInt_ofInt_eq_self hn h.1 (by have := h.2; omega)

/-- A bit vector's value is in range. -/
theorem fitsSigned_toInt {n : Nat} (v : BitVec n) : FitsSigned n v.toInt := by
  have h1 := BitVec.le_toInt v
  have h2 := BitVec.toInt_lt (x := v)
  constructor
  · exact h1
  · omega

/-- Under WRAP something is always delivered, and it is the value of the wrapped bit vector. -/
theorem deliver_wrap {xlen : Nat} (r : Int) (hn : 0 < xlen) :
    deliver xlen .wrap r = some (BitVec.ofInt xlen r).toInt := by
  by_cases h : FitsSigned xlen r
  · rw [deliver_of_fits _ h, toInt_ofInt_of_fits hn h]
  · have h' : fits xlen r = false := by rw [← Bool.not_eq_true, fits_iff]; exact h
    simp only [deliver, h', Bool.false_eq_true, if_false]
    rw [signedOf_lowBits r hn]

/-- Everything `deliver` can answer, whatever the policy. -/
theorem deliver_cases {xlen : Nat} (pol : OvfPolicy) (r : Int) (hn : 0 < xlen) :
    (deliver xlen pol r = none ∧ pol = .fault ∧ ¬FitsSigned xlen r) ∨
    (deliver xlen pol r = some (BitVec.ofInt xlen r).toInt ∧ (pol = .fault → FitsSigned xlen r)) := by
  by_cases h : FitsSigned xlen r
  · exact .inr ⟨by rw [deliver_of_fits _ h, toInt_ofInt_of_fits hn h], fun _ => h⟩
  · cases pol with
    | fault => exact .inl ⟨deliver_fault h, rfl, h⟩
    | wrap => exact .inr ⟨deliver_wrap r hn, fun h => nomatch h⟩

/-! ## Operands -/

section
variable {xlen : Nat} {pol : OvfPolicy} {x : RegFile xlen} {rs1 rs2 : Reg} {off : Int} {a b v : BitVec xlen}

theorem operands_rs1_unwritten (h : readFile x rs1 = none) :
    operands pol x rs1 rs2 off = .error (.unwrittenRegister rs1) := by simp [operands, h]

theorem operands_rs2_unwritten (h1 : readFile x rs1 = some a) (h2 : readFile x rs2 = none) :
    operands pol x rs1 rs2 off = .error (.unwrittenRegister rs2) := by simp [operands, h1, h2]

theorem operands_overflow (h1 : readFile x rs1 = some a) (h2 : readFile x rs2 = some v) (h3 : formB pol v off = none) :
    operands pol x rs1 rs2 off = .error .operandOverflow := by simp [operands, h1, h2, h3]

theorem operands_ok (h1 : readFile x rs1 = some a) (h2 : readFile x rs2 = some v) (h3 : formB pol v off = some b) :
    operands pol x rs1 rs2 off = .ok (a, b) := by simp [operands, h1, h2, h3]

theorem formB_of_fits (h : FitsSigned xlen (v.toInt + off)) :
    formB pol v off = some (BitVec.ofInt xlen (v.toInt + off)) := by simp [formB, deliver_of_fits _ h]

theorem formB_fault (h : ¬FitsSigned xlen (v.toInt + off)) : formB .fault v off = none := by
  simp [formB, deliver_fault h]

theorem formB_wrap (hn : 0 < xlen) : formB .wrap v off = some (BitVec.ofInt xlen (v.toInt + off)) := by
  rw [formB, deliver_wrap _ hn, Option.map_some, BitVec.ofInt_toInt]

/-! ## The ALU -/

theorem aluExec_unsupported {op : BitVec 5} (a b : BitVec xlen) (h : dispatchTable op = none) :
    aluExec pol op a b = .error (.unsupported op) := by simp [aluExec, h]

/-- exec through a table entry that answers the exact integer `r`, delivered as `r'`. -/
theorem aluExec_delivered {op : BitVec 5} {f : Int → Int → Except Err Int} {r r' : Int}
    (h : dispatchTable op = some f) (hr : f a.toInt b.toInt = .ok r) (hd : deliver xlen pol r = some r') :
    aluExec pol op a b = .ok ⟨BitVec.ofInt xlen r', cls r'⟩ := by simp [aluExec, h, hr, represent, hd]

/-- exec through a table entry whose exact integer is not delivered. -/
theorem aluExec_overflow {op : BitVec 5} {f : Int → Int → Except Err Int} {r : Int}
    (h : dispatchTable op = some f) (hr : f a.toInt b.toInt = .ok r) (hd : deliver xlen pol r = none) :
    aluExec pol op a b = .error (.overflow op) := by simp [aluExec, h, hr, represent, hd]

/-- exec through a table entry that answers an error. -/
theorem aluExec_of_error {op : BitVec 5} {f : Int → Int → Except Err Int} {e : Err}
    (h : dispatchTable op = some f) (hr : f a.toInt b.toInt = .error e) : aluExec pol op a b = .error e := by
  simp [aluExec, h, hr]

/-- The model's quotient is Lean's division rounding toward zero. -/
theorem tdiv_eq_int_tdiv (a b : Int) : tdiv a b = a.tdiv b := by
  rcases Int.eq_nat_or_neg a with ⟨m, rfl | rfl⟩ <;> rcases Int.eq_nat_or_neg b with ⟨n, rfl | rfl⟩ <;>
    simp only [Int.tdiv_neg, Int.neg_tdiv, ← Int.ofNat_tdiv, tdiv, Int.natAbs_neg, Int.natAbs_natCast]
  all_goals rcases Nat.eq_zero_or_pos m with rfl | hm <;> rcases Nat.eq_zero_or_pos n with rfl | hn
  all_goals simp
  all_goals omega

/-! ## One decoded instruction -/

theorem driverResult_operands_error {op : Opcode} {e : RunErr} (h : operands pol x rs1 rs2 off = .error e) :
    driverResult pol x op rs1 rs2 off = .error e := by simp [driverResult, h]

theorem driverResult_alu_error {op : Opcode} {e : Err} (h : operands pol x rs1 rs2 off = .ok (a, b))
    (ha : aluExec pol (BitVec.ofNat 5 op.ord) a b = .error e) :
    driverResult pol x op rs1 rs2 off = .error (.block e) := by simp [driverResult, h, ha]

theorem driverResult_ok {op : Opcode} {out : AluOut xlen} (h : operands pol x rs1 rs2 off = .ok (a, b))
    (ha : aluExec pol (BitVec.ofNat 5 op.ord) a b = .ok out) :
    driverResult pol x op rs1 rs2 off = .ok out := by simp [driverResult, h, ha]

/-- A result comes only from written operands and a successful exec. -/
theorem driverResult_ok_inv {op : Opcode} {out : AluOut xlen} (h : driverResult pol x op rs1 rs2 off = .ok out) :
    ∃ a b, operands pol x rs1 rs2 off = .ok (a, b) ∧ aluExec pol (BitVec.ofNat 5 op.ord) a b = .ok out := by
  unfold driverResult at h
  split at h
  · cases h
  · split at h
    · cases h
    · cases h; exact ⟨_, _, ‹_›, ‹_›⟩

end

theorem dispatchToAlu_error {op : Opcode} {rt rs1 rs2 : Reg} {off : Int} {s : State} {e : RunErr}
    (h : driverResult s.cfg.ovfPolicy s.x op rs1 rs2 off = .error e) : dispatchToAlu op rt rs1 rs2 off s = s.raise e := by
  simp [dispatchToAlu, h]

theorem dispatchToAlu_ok {op : Opcode} {rt rs1 rs2 : Reg} {off : Int} {s : State} {out : AluOut s.cfg.xlen}
    (h : driverResult s.cfg.ovfPolicy s.x op rs1 rs2 off = .ok out) :
    dispatchToAlu op rt rs1 rs2 off s = s.writeBack rt out.result out.cond := by simp [dispatchToAlu, h]

/-- Everything the driver can do with a decoded instruction: end the run in an error, or write back. -/
theorem dispatchToAlu_cases (op : Opcode) (rt rs1 rs2 : Reg) (off : Int) (s : State) :
    (∃ e, driverResult s.cfg.ovfPolicy s.x op rs1 rs2 off = .error e ∧ dispatchToAlu op rt rs1 rs2 off s = s.raise e) ∨
    (∃ out, driverResult s.cfg.ovfPolicy s.x op rs1 rs2 off = .ok out ∧
      dispatchToAlu op rt rs1 rs2 off s = s.writeBack rt out.result out.cond) := by
  cases h : driverResult s.cfg.ovfPolicy s.x op rs1 rs2 off with
  | error e => exact .inl ⟨e, rfl, dispatchToAlu_error h⟩
  | ok out => exact .inr ⟨out, rfl, dispatchToAlu_ok h⟩

/-- exec of any instruction is the driver's dispatch of its fields. -/
theorem exec_eq_dispatchToAlu (i : Instr) (s : State) :
    exec i s = .next (dispatchToAlu i.op i.rt i.rs1 i.rs2 i.off s) := by
  cases i <;> rfl

/-! ## The step -/

/-- Everything a step can do: finish, end the run on an illegal word, run the decoded instruction, or stop. -/
theorem step_cases (s : State) :
    (s.status ≠ .running ∧ step s = .fault .runEnded) ∨
    (s.status = .running ∧ s.idx = s.prog.length ∧ step s = .next s.finish) ∨
    (s.status = .running ∧ s.prog.length < s.idx ∧ step s = .fault .indexPastProgram) ∨
    (∃ w e, s.status = .running ∧ s.prog[s.idx]? = some w ∧ decode s.cfg w = .error e ∧
      step s = .next (s.raise (.block e))) ∨
    (∃ w i, s.status = .running ∧ s.prog[s.idx]? = some w ∧ decode s.cfg w = .ok i ∧
      step s = .next (dispatchToAlu i.op i.rt i.rs1 i.rs2 i.off s)) := by
  cases hs : s.status with
  | done => exact .inl ⟨by simp, by simp [step, hs]⟩
  | error e => exact .inl ⟨by simp, by simp [step, hs]⟩
  | running =>
    by_cases he : s.idx = s.prog.length
    · exact .inr (.inl ⟨rfl, he, by simp [step, hs, State.atEnd, he]⟩)
    · cases hw : s.prog[s.idx]? with
      | none =>
        have := List.getElem?_eq_none_iff.1 hw
        exact .inr (.inr (.inl ⟨rfl, by omega, by simp [step, hs, State.atEnd, he, State.nextWord, hw]⟩))
      | some w =>
        cases hd : decode s.cfg w with
        | error e =>
          exact .inr (.inr (.inr (.inl ⟨w, e, rfl, rfl, hd, by simp [step, hs, State.atEnd, he, State.nextWord, hw, hd]⟩)))
        | ok i =>
          refine .inr (.inr (.inr (.inr ⟨w, i, rfl, rfl, hd, ?_⟩)))
          rw [← exec_eq_dispatchToAlu]
          simp [step, hs, State.atEnd, he, State.nextWord, hw, hd]

end Sys2Proof.Machine
end

