-- ==== Sys2Proof/Laws/PerInstr.lean ====
section
/-!
SUPPORT. Statements made per instruction. Family OpcodeField: the opcode field of an instruction's encoding holds its ordinal
(41_codec.md R124), and its decoder row is the instruction's own (R116).
-/
namespace Sys2Proof.Laws

/-- No other field's insert reaches the opcode field. -/
theorem extract_opcode_encodeRaw (op cond rt rs1 rs2 off : Int) :
    fieldOpcode.extract (encodeRaw op cond rt rs1 rs2 off) = lowBits 5 op := by
  apply Nat.eq_of_testBit_eq
  intro i
  rw [BitField.extract_testBit, lowBits_testBit]
  by_cases hi : i < 5
  · have h5 : i < fieldOpcode.width := hi
    have hb : fieldOpcode.lsb + i < 32 := by simp [fieldOpcode]; omega
    simp only [encodeRaw, h5, decide_true, Bool.true_and]
    rw [BitField.getLsbD_insert _ _ _ hb, if_neg (by simp [fieldOffset, fieldOpcode]; omega),
      BitField.getLsbD_insert _ _ _ hb, if_neg (by simp [fieldRs2, fieldOpcode]; omega),
      BitField.getLsbD_insert _ _ _ hb, if_neg (by simp [fieldRs1, fieldOpcode]; omega),
      BitField.getLsbD_insert _ _ _ hb, if_neg (by simp [fieldRt, fieldOpcode]; omega),
      BitField.getLsbD_insert _ _ _ hb, if_neg (by simp [fieldCond, fieldOpcode]; omega),
      BitField.getLsbD_insert _ _ _ hb, if_pos (by simp [fieldOpcode]; omega)]
    simp [fieldOpcode, BitField.width]
  · have h5 : ¬ i < fieldOpcode.width := hi
    simp [h5, BitVec.getLsbD_of_ge (BitVec.ofInt 5 op) i (by omega)]

namespace OpcodeField

/-- The opcode field of the encoding is the ordinal, and that ordinal maps back to the opcode. -/
def Statement (i : Instr) : Prop :=
  fieldOpcode.extract (encode i) = i.op.ord ∧ Opcode.ofOrd i.op.ord = some i.op

theorem halt (c : Fin 16) (rt rs1 rs2 : Reg) (off : Int) : Statement (.halt c rt rs1 rs2 off) :=
  ⟨extract_opcode_encodeRaw _ _ _ _ _ _, rfl⟩
theorem load (c : Fin 16) (rt rs1 rs2 : Reg) (off : Int) : Statement (.load c rt rs1 rs2 off) :=
  ⟨extract_opcode_encodeRaw _ _ _ _ _ _, rfl⟩
theorem store (c : Fin 16) (rt rs1 rs2 : Reg) (off : Int) : Statement (.store c rt rs1 rs2 off) :=
  ⟨extract_opcode_encodeRaw _ _ _ _ _ _, rfl⟩
theorem add (c : Fin 16) (rt rs1 rs2 : Reg) (off : Int) : Statement (.add c rt rs1 rs2 off) :=
  ⟨extract_opcode_encodeRaw _ _ _ _ _ _, rfl⟩
theorem sub (c : Fin 16) (rt rs1 rs2 : Reg) (off : Int) : Statement (.sub c rt rs1 rs2 off) :=
  ⟨extract_opcode_encodeRaw _ _ _ _ _ _, rfl⟩
theorem mul (c : Fin 16) (rt rs1 rs2 : Reg) (off : Int) : Statement (.mul c rt rs1 rs2 off) :=
  ⟨extract_opcode_encodeRaw _ _ _ _ _ _, rfl⟩
theorem div (c : Fin 16) (rt rs1 rs2 : Reg) (off : Int) : Statement (.div c rt rs1 rs2 off) :=
  ⟨extract_opcode_encodeRaw _ _ _ _ _ _, rfl⟩

end OpcodeField

end Sys2Proof.Laws
end

