-- ==== Sys2Proof/Tests/Slice0.lean ====
section
/-!
SUPPORT. The model's own tests, each one step or one operation on a small input, with expected values from 95_test_vectors.md
(their numbers S, B, C, A and P stand in the comments) or worked by hand from a rule; then, for every statement that has
hypotheses, a concrete input that meets them, one for each clause at a boundary value.
-/
namespace Sys2Proof.Tests
open Sys2Proof.Machine

/-! ## Helpers -/

/-- The default instance under WRAP. -/
def wrapCfg : Config := { Config.ex1 with ovfPolicy := .wrap }

/-- A legal instance of the least widths. -/
def smallCfg : Config := { Config.ex1 with xlen := 11, inW := 10 }

/-- A launch with the given program and registers; the registers not listed hold 0. -/
def st (cfg : Config) (prog : List Word) (regs : List (Reg × Option Int)) : State :=
  State.launch cfg prog
    (regs.foldl (fun x p => x.set p.1.val (p.2.map (BitVec.ofInt cfg.xlen))) (Vector.replicate 16 (some 0)))

/-- What a step left: `status`, `idx`, `cc` and the value of register `j`. -/
def seen (j : Reg) : Host.Outcome State Fault Refusal → Option (Status × Nat × Option Cc × Option Int)
  | .next t => some (t.status, t.idx, t.cc, t.regValue j)
  | _ => none

/-- The least and the greatest value of 32 signed bits (M and X of 95_test_vectors.md). -/
def M : BitVec 32 := 0x80000000
def X : BitVec 32 := 0x7FFFFFFF

/-! ## WellFormed: each check refuses an ill-formed term (R117, R118) -/

theorem test_wellFormed_accepts : (Instr.add 15 1 0 0 511).wellFormed Config.ex2 := by decide
theorem test_wellFormed_refuses_offset_512 : ¬(Instr.add 15 1 0 0 512).wellFormed Config.ex1 := by decide
theorem test_wellFormed_refuses_offset_m513 : ¬(Instr.load 15 1 0 0 (-513)).wellFormed Config.ex1 := by decide
theorem test_wellFormed_refuses_condition : ¬(Instr.add 14 1 0 0 0).wellFormed Config.ex2 := by decide
theorem test_config_refuses_xlen_10 : ¬({ Config.ex1 with xlen := 10 } : Config).wf := by decide
theorem test_config_refuses_inW_9 : ¬({ Config.ex1 with inW := 9 } : Config).wf := by decide
theorem test_config_refuses_always : ¬({ Config.ex2 with condAlways := 14 } : Config).wf := by decide

/-! ## BitField (B1 to B27, S1 to S6) -/

theorem test_construct_range_errors :
    construct 5 4 = .error (.range 5 4) ∧ construct (-1) 3 = .error (.range (-1) 3) ∧
    construct 3 (-1) = .error (.range 3 (-1)) ∧ construct 0 32 = .error (.range 0 32) := by decide
theorem test_construct_masks :
    (construct 31 31).map (fun f => (f.width, f.fieldMask, f.wordMask)) = .ok (1, 1, 0x80000000) ∧
    (construct 0 0).map BitField.width = .ok 1 ∧
    (construct 0 31).map (fun f => (f.width, f.fieldMask)) = .ok (32, 0xFFFFFFFF) := by decide
/-- The fields the vectors name, by construct. -/
def fld (l m : Nat) (h : l ≤ m := by decide) (h' : m < 32 := by decide) : BitField := ⟨l, m, h, h'⟩
theorem test_extract :
    [(fld 26 30).extract 0x0FC4000F, (fld 0 9).extract 0x3FF, (fld 0 9).extract 0x200, (fld 0 31).extract 0xFFFFFFFF,
      (fld 31 31).extract 0x80000000, (fld 22 25).extract 0x03C00000, (fld 4 7).extract 0x12345678] =
    [3, 1023, 512, 4294967295, 1, 15, 7] := by decide
theorem test_extract_signed :
    [(fld 26 30).extractSigned 0x0FC4000F, (fld 0 9).extractSigned 0x3FF, (fld 0 9).extractSigned 0x200,
      (fld 0 9).extractSigned 0x1FF, (fld 0 31).extractSigned 0xFFFFFFFF, (fld 31 31).extractSigned 0x80000000,
      (fld 22 25).extractSigned 0x03C00000, (fld 4 7).extractSigned 0x12345678] =
    [3, -1, -512, 511, -1, -1, -1, 7] := by decide
theorem test_insert_offset :
    [(fld 0 9).insert (-1) 0x0C000000, (fld 0 9).insert 1024 0, (fld 0 9).insert (-513) 0, (fld 0 9).insert 512 0] =
    [0x0C0003FF, 0, 0x1FF, 0x200] := by decide
theorem test_insert_elsewhere :
    [(fld 18 21).insert 17 0, (fld 18 21).insert (-1) 0, (fld 26 30).insert 3 0xFFFFFFFF, (fld 0 31).insert (-1) 0,
      (fld 0 31).insert 4294967301 0xABCD, (fld 4 7).insert 0 0xFFFFFFFF, (fld 4 7).insert 26 0x12345678,
      (fld 31 31).insert 1 0] =
    [0x00040000, 0x003C0000, 0x8FFFFFFF, 0xFFFFFFFF, 5, 0xFFFFFF0F, 0x123456A8, 0x80000000] := by decide

/-! ## Codec: words written out from R66 and R77 (C1 to C30) -/

theorem test_decode_halt : decode Config.ex1 0x03C00000 = .ok (.halt 15 0 0 0 0) := by decide          -- C5
theorem test_decode_load : decode Config.ex1 0x07D15BFF = .ok (.load 15 4 5 6 (-1)) := by decide       -- C6
theorem test_decode_store : decode Config.ex1 0x0BDE2600 = .ok (.store 15 7 8 9 (-512)) := by decide   -- C7
theorem test_decode_add : decode Config.ex1 0x0FC4000F = .ok (.add 15 1 0 0 15) := by decide           -- C1
theorem test_decode_sub : decode Config.ex1 0x17CC8005 = .ok (.sub 15 3 2 0 5) := by decide            -- C3
theorem test_decode_mul : decode Config.ex1 0x1BCCC002 = .ok (.mul 15 3 3 0 2) := by decide            -- C4
theorem test_decode_div : decode Config.ex1 0x1FFFFDFF = .ok (.div 15 15 15 15 511) := by decide       -- C8
/-- C9, C20, C25 to C27: condition 0, bit 31 ignored, the offset's ends, the zero word. -/
theorem test_decode_corners :
    decode Config.ex1 0x0C000000 = .ok (.add 0 0 0 0 0) ∧ decode Config.ex1 0x8FC4000F = .ok (.add 15 1 0 0 15) ∧
    decode Config.ex1 0x1C000200 = .ok (.div 0 0 0 0 (-512)) ∧ decode Config.ex1 0x1C0001FF = .ok (.div 0 0 0 0 511) ∧
    decode Config.ex1 0 = .ok (.halt 0 0 0 0 0) := by decide
/-- C21 to C24, C28 to C30: what decode rejects, and the opcode before the condition. -/
theorem test_decode_rejects :
    decode Config.ex1 0x10000000 = .error (.decode .opcode 4) ∧ decode Config.ex1 0x20000000 = .error (.decode .opcode 8) ∧
    decode Config.ex1 0x7C000000 = .error (.decode .opcode 31) ∧ decode Config.ex1 0xFFFFFFFF = .error (.decode .opcode 31) ∧
    decode Config.ex2 0x0C000000 = .error (.decode .condition 0) ∧
    decode Config.ex2 0x10000000 = .error (.decode .opcode 4) ∧ decode Config.ex2 0x0FC4000F = .ok (.add 15 1 0 0 15) := by
  decide
/-- C20, C21, C25, C26, C28 at the decoder's ports. -/
theorem test_decoder_ports :
    decoderPorts Config.ex1 0x8FC4000F = ⟨some ⟨3, 15, 1, 0, 0, 15⟩, 0, none⟩ ∧
    decoderPorts Config.ex1 0x10000000 = ⟨none, 2, some 0⟩ ∧ decoderPorts Config.ex2 0x0C000000 = ⟨none, 2, some 1⟩ ∧
    (decoderPorts Config.ex1 0x1C000200).data.map (·.dec_off) = some 0xFFFFFE00 ∧
    (decoderPorts Config.ex1 0x1C0001FF).data.map (·.dec_off) = some 0x000001FF := by decide
/-- C1 to C8 the other way. -/
theorem test_encode :
    [encode (.halt 15 0 0 0 0), encode (.load 15 4 5 6 (-1)), encode (.store 15 7 8 9 (-512)), encode (.add 15 1 0 0 15),
      encode (.sub 15 3 2 0 5), encode (.mul 15 3 3 0 2), encode (.div 15 15 15 15 511)] =
    [0x03C00000, 0x07D15BFF, 0x0BDE2600, 0x0FC4000F, 0x17CC8005, 0x1BCCC002, 0x1FFFFDFF] := by decide
/-- C10 to C18: encode truncates and never fails. -/
theorem test_encode_truncates :
    [encodeRaw 3 15 17 0 0 0, encodeRaw 3 15 1 0 0 512, encodeRaw 3 15 1 0 0 (-513), encodeRaw 3 15 1 0 0 1023,
      encodeRaw 3 15 1 0 0 1024, encodeRaw 4 15 0 0 0 0, encodeRaw 35 15 0 0 0 0, encodeRaw 3 16 0 0 0 0,
      encodeRaw 3 (-1) (-1) (-1) (-1) (-1)] =
    [0x0FC40000, 0x0FC40200, 0x0FC401FF, 0x0FC403FF, 0x0FC40000, 0x13C00000, 0x0FC00000, 0x0C000000, 0x0FFFFFFF] := by
  decide
/-- C10 to C19: `enc_in_range`. -/
theorem test_in_range :
    [inRangeRaw Config.ex1 3 15 17 0 0 0, inRangeRaw Config.ex1 3 15 1 0 0 512, inRangeRaw Config.ex1 3 15 1 0 0 (-513),
      inRangeRaw Config.ex1 4 15 0 0 0 0, inRangeRaw Config.ex1 35 15 0 0 0 0, inRangeRaw Config.ex1 3 16 0 0 0 0,
      inRangeRaw Config.ex1 3 (-1) 0 0 0 0, inRangeRaw Config.ex1 3 15 1 0 0 15] =
    [false, false, false, false, false, false, false, true] := by decide
/-- C7 and C11 at the encoder's ports, at the default and the least IN_W (R47, R17: 512 is -512 in 10 bits). -/
theorem test_encoder_ports :
    encoderPorts Config.ex1 ⟨2, 15, 7, 8, 9, -512⟩ = ⟨0x0BDE2600, true⟩ ∧
    encoderPorts Config.ex1 ⟨3, 15, 1, 0, 0, 512⟩ = ⟨0x0FC40200, false⟩ ∧
    (encoderPorts smallCfg ⟨3, 15, 1, 0, 0, 512⟩).enc_word = 0x0FC40200 := by decide
/-- B14 and B26 at the BitField unit's ports (R45). -/
theorem test_bitfield_unit :
    bitfieldUnit Config.ex1 (fld 22 25) 0x03C00000 0 = ⟨15, 15, 0⟩ ∧
    bitfieldUnit Config.ex1 (fld 4 7) 0x12345678 0x1A = ⟨7, 7, 0x123456A8⟩ := by decide
/-- The host's two questions, on C3: this decoder reads the instruction, and the first step after reset runs it (R149). -/
theorem test_table_word_decodes : decodeTableWord 32 0x17CC8005 = some (.sub 15 3 2 0 5) := by decide
theorem test_table_word_runs :
    seen 3 (step (State.reset.withFetchWord 32 0x17CC8005)) = some (.running, 1, some .neg, some (-5)) := by decide

/-! ## The ALU (A1 to A35) -/

/-- An ALU outcome with its result read as a signed integer. -/
def alu (pol : OvfPolicy) (op : BitVec 5) (a b : BitVec 32) : Except Err (Int × Cc) :=
  (aluExec pol op a b).map fun out => (out.result.toInt, out.cond)

theorem test_alu_add :                                                                         -- A2 to A4
    alu .fault 3 X 1 = .error (.overflow 3) ∧ alu .wrap 3 X 1 = .ok (-2147483648, .neg) ∧
    alu .wrap 3 M (-1) = .ok (2147483647, .pos) ∧ alu .fault 3 (-5) 5 = .ok (0, .zero) := by decide
theorem test_alu_sub :                                                                         -- A5, A7 to A9
    alu .fault 5 30 5 = .ok (25, .pos) ∧ alu .fault 5 0 M = .error (.overflow 5) ∧
    alu .wrap 5 0 M = .ok (-2147483648, .neg) ∧ alu .wrap 5 M 1 = .ok (2147483647, .pos) ∧
    alu .fault 5 (-3) 4 = .ok (-7, .neg) := by decide
theorem test_alu_mul :                                                                         -- A12, A14 to A17
    alu .fault 6 (-3) (-4) = .ok (12, .pos) ∧ alu .fault 6 65536 65536 = .error (.overflow 6) ∧
    alu .wrap 6 65536 65536 = .ok (0, .zero) ∧ alu .wrap 6 M (-1) = .ok (-2147483648, .neg) ∧
    alu .wrap 6 46341 46341 = .ok (-2147479015, .neg) ∧ alu .fault 6 46340 46340 = .ok (2147395600, .pos) := by decide
theorem test_alu_div :                                                                         -- A18 to A24, A29
    alu .fault 7 7 2 = .ok (3, .pos) ∧ alu .fault 7 (-7) 2 = .ok (-3, .neg) ∧ alu .fault 7 7 (-2) = .ok (-3, .neg) ∧
    alu .fault 7 (-7) (-2) = .ok (3, .pos) ∧ alu .fault 7 (-1) 2 = .ok (0, .zero) ∧ alu .fault 7 0 5 = .ok (0, .zero) ∧
    alu .fault 7 X (-1) = .ok (-2147483647, .neg) := by decide
theorem test_alu_div_corners :                                                                 -- A25 to A28
    alu .fault 7 7 0 = .error .divisionByZero ∧ alu .wrap 7 0 0 = .error .divisionByZero ∧
    alu .fault 7 M (-1) = .error (.overflow 7) ∧ alu .wrap 7 M (-1) = .ok (-2147483648, .neg) ∧
    alu .fault 7 M 1 = .ok (-2147483648, .neg) := by decide
theorem test_alu_unsupported :                                                                 -- A30 to A35
    [0, 1, 2, 4, 8, 31].map (fun op => alu .fault op 1 1) =
      [0, 1, 2, 4, 8, 31].map (fun op => .error (.unsupported op)) := by decide
/-- The error ports of A2, A25, A30 and the one-hot condition of A4, A5, A9 (R146). -/
theorem test_alu_ports :
    aluPorts Config.ex1 3 X 1 = ⟨none, 5⟩ ∧ aluPorts Config.ex1 7 7 0 = ⟨none, 4⟩ ∧ aluPorts Config.ex1 0 1 2 = ⟨none, 3⟩ ∧
    aluPorts Config.ex1 3 (-5) 5 = ⟨some (0, 0b010), 0⟩ ∧ aluPorts Config.ex1 5 30 5 = ⟨some (25, 0b100), 0⟩ ∧
    aluPorts Config.ex1 5 (-3) 4 = ⟨some (-7, 0b001), 0⟩ := by decide

/-! ## Steps of the driver, each instruction once or twice (P1 to P8) -/

theorem test_step_add :                                                                        -- P1 word 1; P2 word 6
    seen 2 (step (st Config.ex1 [0x0FC84400] [(1, some 15)])) = some (.running, 1, some .pos, some 30) ∧
    seen 7 (step (st Config.ex1 [0x0C1DDC01] [(7, some 4)])) = some (.running, 1, some .pos, some 9) := by decide
theorem test_step_sub :                                                                        -- P1 word 2; P2 word 4
    seen 3 (step (st Config.ex1 [0x17CC8005] [(2, some 30)])) = some (.running, 1, some .pos, some 25) ∧
    seen 5 (step (st Config.ex1 [0x17D51000] [(4, some 1536)])) = some (.running, 1, some .zero, some 0) := by decide
theorem test_step_mul :                                                                        -- P1 word 3; P2 word 3
    seen 3 (step (st Config.ex1 [0x1BCCC002] [(3, some 25)])) = some (.running, 1, some .pos, some 50) ∧
    seen 4 (step (st Config.ex1 [0x1BD0C200] [(3, some (-3))])) = some (.running, 1, some .pos, some 1536) := by decide
theorem test_step_div :                                                                        -- P2 words 2 and 5
    seen 3 (step (st Config.ex1 [0x1FCC4800] [(1, some (-7)), (2, some 2)])) = some (.running, 1, some .neg, some (-3)) ∧
    seen 6 (step (st Config.ex1 [0x1FD84BFC] [(1, some (-7)), (2, some 2)])) = some (.running, 1, some .pos, some 3) := by
  decide
theorem test_step_div_by_zero :                                                                -- P3 word 1
    seen 2 (step (st Config.ex1 [0x1FC84000] [(1, some 1)])) =
      some (.error (.block .divisionByZero), 0, none, some 0) := by decide
theorem test_step_halt :                                                                       -- P4 word 1
    seen 0 (step (st Config.ex1 [0x03C00000] [])) = some (.error (.block (.unsupported 0)), 0, none, some 0) := by decide
theorem test_step_load :                                                                       -- R153, R186
    seen 4 (step (st Config.ex1 [0x07D15BFF] [(4, some 9)])) =
      some (.error (.block (.unsupported 1)), 0, none, some 9) := by decide
theorem test_step_store :                                                                      -- R154, R186
    seen 7 (step (st Config.ex1 [0x0BDE2600] [(7, some 9)])) =
      some (.error (.block (.unsupported 2)), 0, none, some 9) := by decide
theorem test_step_overflow :                                                                   -- P5 word 2
    seen 1 (step (st Config.ex1 [0x1BC44400] [(1, some 261121)])) =
      some (.error (.block (.overflow 6)), 0, none, some 261121) ∧
    seen 1 (step (st wrapCfg [0x1BC44400] [(1, some 261121)])) = some (.running, 1, some .neg, some (-535300095)) := by
  decide
theorem test_step_unwritten :                                                                  -- P6 word 1
    seen 2 (step (st Config.ex1 [0x0FC94000] [(5, none), (2, none)])) =
      some (.error (.unwrittenRegister 5), 0, none, none) := by decide
theorem test_step_illegal_word :                                                               -- P7 word 1
    seen 1 (step (st Config.ex1 [0x13C80000] [(1, some 3)])) =
      some (.error (.block (.decode .opcode 4)), 0, none, some 3) := by decide
theorem test_step_operand_overflow :                                                           -- P8
    seen 1 (step (st Config.ex1 [0x0FC40801] [(2, some 2147483647)])) = some (.error .operandOverflow, 0, none, some 0) ∧
    seen 1 (step (st wrapCfg [0x0FC40801] [(2, some 2147483647)])) = some (.running, 1, some .neg, some (-2147483648)) := by
  decide
/-- R183, R189: the end of the program, then no further step. -/
theorem test_step_ends :
    step State.reset = .next State.reset.finish ∧ step State.reset.finish = .fault .runEnded := ⟨rfl, rfl⟩

/-! ## Witnesses: an input for the hypotheses of each statement, in the statements' order -/

theorem test_witness_configs : Config.ex1.wf ∧ Config.ex2.wf ∧ wrapCfg.wf ∧ smallCfg.wf := by decide

/-- ConstructAcceptsExactlyLegalRanges: the largest and the smallest fields; B1 to B4 for the other clause. -/
theorem test_witness_ConstructAcceptsExactlyLegalRanges :
    ((0 : Int) ≤ 0 ∧ (0 : Int) ≤ 31 ∧ (0 : Int) ≤ 31 ∧ (31 : Int) < 32) ∧ ((-1 : Int) < 0) ∧ (5 : Int) > 4 ∧ (32 : Int) ≥ 32 := by
  decide
theorem test_witness_ExtractReturnsTheSlice :
    (0x12345678 : Word) &&& (fld 4 7).wordMask = 0xFFFFFF7F &&& (fld 4 7).wordMask := by decide
/-- Both ends of both ranges, at width 10 (S2, S3) and at width 1. -/
theorem test_witness_InsertedValueReadsBack :
    (∀ v ∈ [-512, 511], -(2 : Int) ^ (fieldOffset.width - 1) ≤ v ∧ v ≤ (2 : Int) ^ (fieldOffset.width - 1) - 1) ∧
    (∀ v ∈ [0, 1023], (0 : Int) ≤ v ∧ v ≤ (2 : Int) ^ fieldOffset.width - 1) ∧
    (-(2 : Int) ^ ((fld 31 31).width - 1) ≤ -1 ∧ (0 : Int) ≤ (2 : Int) ^ ((fld 31 31).width - 1) - 1) := by decide
theorem test_witness_DisjointFieldsCommute :
    fieldRs2.wordMask &&& fieldOffset.wordMask = 0 ∧ (fld 31 31).wordMask &&& (fld 0 30).wordMask = 0 := by decide
theorem test_witness_NegativeInsertStoresUnsignedPattern :
    ∀ v ∈ [-512, -1], -(2 : Int) ^ (fieldOffset.width - 1) ≤ v ∧ v ≤ (-1 : Int) := by decide
/-- The widest field on the default instance, and the widest that the least IN_W allows. -/
theorem test_witness_UnitPortsCarryTheOperations : (fld 0 31).width ≤ Config.ex1.inW ∧ fieldOffset.width ≤ smallCfg.inW := by
  decide
theorem test_witness_WrittenOutWordsDecode : Config.ex1.condOk 15 = true ∧ Config.ex2.condOk 15 = true := by decide
/-- C21 (4), C22 (8) and C23 (31) for the opcode; C28 for the condition; C5 (0) and C8 (7) for a legal word. -/
theorem test_witness_DecodeReadsEveryField :
    ((0x10000000 : Word).extractLsb' 26 5).toNat ∉ [0, 1, 2, 3, 5, 6, 7] ∧
    ((0x20000000 : Word).extractLsb' 26 5).toNat ∉ [0, 1, 2, 3, 5, 6, 7] ∧
    ((0x7C000000 : Word).extractLsb' 26 5).toNat ∉ [0, 1, 2, 3, 5, 6, 7] ∧
    ((0x0C000000 : Word).extractLsb' 26 5).toNat ∈ [0, 1, 2, 3, 5, 6, 7] ∧
    Config.ex2.condOk ((0x0C000000 : Word).extractLsb' 22 4).toFin = false ∧
    ((0x03C00000 : Word).extractLsb' 26 5).toNat ∈ [0, 1, 2, 3, 5, 6, 7] ∧
    ((0x1FFFFDFF : Word).extractLsb' 26 5).toNat ∈ [0, 1, 2, 3, 5, 6, 7] ∧
    Config.ex2.condOk ((0x1FFFFDFF : Word).extractLsb' 22 4).toFin = true := by
  and_intros <;> decide
/-- C25: the least offset, at the default width and at the least XLEN. -/
theorem test_witness_OffsetPortHoldsTheOffset :
    smallCfg.wf ∧ decode smallCfg 0x1C000200 = .ok (.div 0 0 0 0 (-512)) ∧
    (decoderPorts smallCfg 0x1C000200).data = some ⟨7, 0, 0, 0, 0, 0x600⟩ := by decide
/-- C1 and C20: two words of one instruction, for either direction. -/
theorem test_witness_SameInstructionIffSameLowBits :
    decode Config.ex1 0x0FC4000F = .ok (.add 15 1 0 0 15) ∧ decode Config.ex1 0x8FC4000F = .ok (.add 15 1 0 0 15) ∧
    (0x0FC4000F : Word) &&& 0x7FFFFFFF = 0x8FC4000F &&& 0x7FFFFFFF := by decide
theorem test_witness_EncodeInsertsInAnyOrder :
    [(fieldOffset, (15 : Int)), (fieldRs2, 0), (fieldRs1, 0), (fieldRt, 1), (fieldCond, 15), (fieldOpcode, 3)].Perm
      [(fieldOpcode, 3), (fieldCond, 15), (fieldRt, 1), (fieldRs1, 0), (fieldRs2, 0), (fieldOffset, 15)] :=
  by decide
/-- C19 in range, C11 out of range. -/
theorem test_witness_InRangeAcceptsExactlyWellFormed :
    inRangeRaw Config.ex1 3 15 1 0 0 15 = true ∧ (Instr.add 15 1 0 0 15).wellFormed Config.ex1 ∧
    inRangeRaw Config.ex1 3 15 1 0 0 512 = false := by decide
theorem test_witness_EncoderWordIndependentOfInputWidth : 10 ≤ smallCfg.inW := by decide
/-- Both ends of the offset. -/
theorem test_witness_DecodeOfEncodeIsTheInstruction :
    (Instr.store 15 7 8 9 (-512)).wellFormed Config.ex1 ∧ (Instr.div 15 15 15 15 511).wellFormed Config.ex2 := by decide
/-- C20 (bit 31 set) and C8 (bit 31 clear). -/
theorem test_witness_EncodeOfDecodeIsTheWord :
    decode Config.ex1 0x8FC4000F = .ok (.add 15 1 0 0 15) ∧ decode Config.ex1 0x1FFFFDFF = .ok (.div 15 15 15 15 511) ∧
    (0x1FFFFDFF : Word).getLsbD 31 = false := by decide
/-- C18 and C12. -/
theorem test_witness_TruncatedRoundTrip :
    decode Config.ex1 (encodeRaw 3 (-1) (-1) (-1) (-1) (-1)) = .ok (.add 15 15 15 15 (-1)) ∧
    decode Config.ex1 (encodeRaw 3 15 1 0 0 (-513)) = .ok (.add 15 1 0 0 511) := by decide
/-- C15 (4), an opcode of 8, and C28's condition 0. -/
theorem test_witness_DecodeRejectsBadEncoderInputs :
    lowBits 5 4 = 4 ∧ 8 ≤ lowBits 5 8 ∧ Config.ex2.condOk (Fin.ofNat 16 (lowBits 4 16)) = false := by decide
/-- C1 against words that differ in one field: a new opcode (SUB; the reserved 4), condition, rt, rs1, rs2, offset. -/
theorem test_witness_FieldsAreIndependent :
    decode Config.ex1 0x0FC4000F = .ok (.add 15 1 0 0 15) ∧
    (0x0FC4000F : Word) &&& ~~~fieldOpcode.wordMask = 0x17C4000F &&& ~~~fieldOpcode.wordMask ∧
    (0x0FC4000F : Word) &&& ~~~fieldOpcode.wordMask = 0x13C4000F &&& ~~~fieldOpcode.wordMask ∧
    (0x0FC4000F : Word) &&& ~~~fieldCond.wordMask = 0x0C04000F &&& ~~~fieldCond.wordMask ∧
    (0x0FC4000F : Word) &&& ~~~fieldRt.wordMask = 0x0FFC000F &&& ~~~fieldRt.wordMask ∧
    (0x0FC4000F : Word) &&& ~~~fieldRs1.wordMask = 0x0FC7C00F &&& ~~~fieldRs1.wordMask ∧
    (0x0FC4000F : Word) &&& ~~~fieldRs2.wordMask = 0x0FC43C0F &&& ~~~fieldRs2.wordMask ∧
    (0x0FC4000F : Word) &&& ~~~fieldOffset.wordMask = 0x0FC40200 &&& ~~~fieldOffset.wordMask := by decide
/-- The greatest sum that fits and the least that does not (A2); the least that fits and A3. -/
theorem test_witness_AluAddResult :
    FitsSigned 32 ((0x7FFFFFFE : BitVec 32).toInt + (1 : BitVec 32).toInt) ∧ FitsSigned 32 (M.toInt + (0 : BitVec 32).toInt) ∧
    ¬FitsSigned 32 (X.toInt + (1 : BitVec 32).toInt) ∧ ¬FitsSigned 32 (M.toInt + (-1 : BitVec 32).toInt) ∧
    Config.ex1.wf ∧ Config.ex1.ovfPolicy = .fault ∧ wrapCfg.wf ∧ wrapCfg.ovfPolicy = .wrap := by decide
/-- A7 and A8 beside the nearest differences that fit. -/
theorem test_witness_AluSubResult :
    FitsSigned 32 ((-1 : BitVec 32).toInt - M.toInt) ∧ FitsSigned 32 (M.toInt - (0 : BitVec 32).toInt) ∧
    ¬FitsSigned 32 ((0 : BitVec 32).toInt - M.toInt) ∧ ¬FitsSigned 32 (M.toInt - (1 : BitVec 32).toInt) := by decide
/-- A16, A17, and A15 beside the product that just fits. -/
theorem test_witness_AluMulResult :
    FitsSigned 32 ((46340 : BitVec 32).toInt * (46340 : BitVec 32).toInt) ∧ FitsSigned 32 (M.toInt * (1 : BitVec 32).toInt) ∧
    ¬FitsSigned 32 ((46341 : BitVec 32).toInt * (46341 : BitVec 32).toInt) ∧ ¬FitsSigned 32 (M.toInt * (-1 : BitVec 32).toInt) := by
  decide
/-- A25; A28 and A29 on either side of the corner; A27. The three clauses exclude each other. -/
theorem test_witness_AluDivResult :
    (0 : BitVec 32).toInt = 0 ∧ (-1 : BitVec 32).toInt ≠ 0 ∧ M.toInt = -(2 : Int) ^ (32 - 1) ∧ (-1 : BitVec 32).toInt = -1 ∧
    ¬(M.toInt = -(2 : Int) ^ (32 - 1) ∧ (1 : BitVec 32).toInt = -1) ∧
    ¬(X.toInt = -(2 : Int) ^ (32 - 1) ∧ (-1 : BitVec 32).toInt = -1) := by decide
theorem test_witness_AluSupportsExactlyFourOpcodes :
    (∀ op ∈ [(0 : BitVec 5), 1, 2, 4, 8, 31], op.toNat ∉ [3, 5, 6, 7]) ∧ (∀ op ∈ [(3 : BitVec 5), 5, 6, 7], op.toNat ∈ [3, 5, 6, 7]) := by
  decide
/-- A wrapped and an exact outcome (A2, A17), and one of each other opcode. -/
theorem test_witness_DeliveredResultIsExactOrWrapped :
    aluExec .wrap 3 X 1 = .ok ⟨M, .neg⟩ ∧ aluExec .fault 5 (30 : BitVec 32) 5 = .ok ⟨25, .pos⟩ ∧
    aluExec .fault 6 (46340 : BitVec 32) 46340 = .ok ⟨2147395600, .pos⟩ ∧
    aluExec .fault 7 (-7 : BitVec 32) 2 = .ok ⟨-3, .neg⟩ := by decide
/-- One outcome of each sign: A9, A6, A5. -/
theorem test_witness_ConditionIsTheSignOfTheResult :
    aluExec Config.ex1.ovfPolicy 5 (-3 : BitVec 32) 4 = .ok ⟨-7, .neg⟩ ∧ aluExec Config.ex1.ovfPolicy 5 (5 : BitVec 32) 5 = .ok ⟨0, .zero⟩ ∧
    aluExec Config.ex1.ovfPolicy 5 (30 : BitVec 32) 5 = .ok ⟨25, .pos⟩ := by decide
/-- A18 to A24 meet the five clauses; |a| = |b| and |a| < |b| are where a condition changes. -/
theorem test_witness_QuotientSigns :
    (tdiv 7 2 = 3 ∧ tdiv 2 2 = 1 ∧ tdiv 1 2 = 0) ∧ (tdiv (-7) 2 = -3 ∧ tdiv (-2) 2 = -1 ∧ tdiv (-1) 2 = 0) ∧
    (tdiv 7 (-2) = -3 ∧ tdiv 2 (-2) = -1 ∧ tdiv 1 (-2) = 0) ∧ (tdiv (-7) (-2) = 3 ∧ tdiv (-2) (-2) = 1 ∧ tdiv (-1) (-2) = 0) ∧
    tdiv 0 5 = 0 := by decide
/-- The ends where `2a` and `a^2` still fit in 11 bits. -/
theorem test_witness_EqualOperands :
    (-1 : BitVec 11).toInt ≠ 0 ∧ FitsSigned 11 (2 * (-512 : BitVec 11).toInt) ∧ FitsSigned 11 ((31 : BitVec 11).toInt ^ 2) ∧ 11 ≤ 11 := by
  decide
theorem test_witness_EachOperationRaisesItsOwnErrors :
    construct 5 4 = .error (.range 5 4) ∧ decode Config.ex1 0x10000000 = .error (.decode .opcode 4) ∧
    aluExec Config.ex1.ovfPolicy 0 (1 : BitVec 32) 2 = .error (.unsupported 0) ∧
    aluExec Config.ex1.ovfPolicy 7 (7 : BitVec 32) 0 = .error .divisionByZero ∧
    aluExec Config.ex1.ovfPolicy 3 X 1 = .error (.overflow 3) := by decide

/-- A running state whose next word is C1, with a source at the greatest value and one at the least. -/
def s0 (cfg : Config) (word : Word) : State :=
  st cfg [word] [(1, some 2147483647), (2, some (-2147483648)), (3, none), (4, some 1), (5, some (-1)), (6, some 7)]

theorem test_witness_StepRunsTheDecodedInstruction :
    (s0 Config.ex1 0x0FC4000F).status = .running ∧ (s0 Config.ex1 0x0FC4000F).prog[(s0 Config.ex1 0x0FC4000F).idx]? = some 0x0FC4000F ∧
    decode (s0 Config.ex1 0x0FC4000F).cfg 0x0FC4000F = .ok (.add 15 1 0 0 15) := by decide
/-- The four clauses: the end of an empty program, an illegal word, DONE, ERROR. -/
theorem test_witness_StepEndsTheRun :
    ((st Config.ex1 [] []).status = .running ∧ (st Config.ex1 [] []).idx = (st Config.ex1 [] []).prog.length) ∧
    ((s0 Config.ex1 0x10000000).status = .running ∧ (s0 Config.ex1 0x10000000).prog[(s0 Config.ex1 0x10000000).idx]? = some 0x10000000 ∧
      decode (s0 Config.ex1 0x10000000).cfg 0x10000000 = .error (.decode .opcode 4)) ∧
    (st Config.ex1 [] []).finish.status = .done ∧
    ((st Config.ex1 [] []).raise .operandOverflow).status = .error .operandOverflow := by decide
theorem test_witness_PlacedWordRunsNext : decode State.reset.cfg (tableWord 32 0x0FC4000F) = .ok (.add 15 1 0 0 15) := by decide
/-- ADD of `x4` and `x4 + 511` exactly; under WRAP of `x4` and `x1 + 1`, which wraps. -/
theorem test_witness_SuccessfulExecIsWrittenBack :
    ((s0 Config.ex1 0).readReg 4 = some 1 ∧ FitsSigned 32 ((1 : BitVec 32).toInt + 511) ∧
      aluExec (s0 Config.ex1 0).cfg.ovfPolicy (BitVec.ofNat 5 (Instr.add 15 4 4 4 511).op.ord) (1 : BitVec 32)
        (BitVec.ofInt 32 ((1 : BitVec 32).toInt + 511)) = .ok ⟨513, .pos⟩) ∧
    ((s0 wrapCfg 0).readReg 1 = some X ∧ 0 < (s0 wrapCfg 0).cfg.xlen ∧ (s0 wrapCfg 0).cfg.ovfPolicy = .wrap ∧
      aluExec (s0 wrapCfg 0).cfg.ovfPolicy (BitVec.ofNat 5 (Instr.add 15 4 4 1 1).op.ord) (1 : BitVec 32)
        (X + BitVec.ofInt 32 1) = .ok ⟨0x80000001, .neg⟩) := by
  and_intros <;> first | decide | rfl
/-- Operand 2 at its largest (`x1 + 0`); the sum with -1, the difference from -1 and the product with 1 or -1 fit. -/
theorem test_witness_AddSubMulWriteTheExactResult :
    (s0 Config.ex1 0).cfg.wf ∧ (s0 Config.ex1 0).readReg 5 = some (-1) ∧ (s0 Config.ex1 0).readReg 1 = some X ∧
    FitsSigned 32 (X.toInt + 0) ∧ FitsSigned 32 ((-1 : BitVec 32).toInt + (X.toInt + 0)) ∧
    FitsSigned 32 ((-1 : BitVec 32).toInt - (X.toInt + 0)) ∧ FitsSigned 32 ((-1 : BitVec 32).toInt * (X.toInt + 0)) := by
  and_intros <;> first | decide | rfl
/-- Quotient clause: M over 1, and 7 over -1. Zero clause: `x5 + 1 = 0`. -/
theorem test_witness_DivWritesTheTruncatedQuotient :
    (s0 Config.ex1 0).readReg 2 = some M ∧ (s0 Config.ex1 0).readReg 4 = some 1 ∧ (s0 Config.ex1 0).readReg 5 = some (-1) ∧
    FitsSigned 32 ((1 : BitVec 32).toInt + 0) ∧ (1 : BitVec 32).toInt + 0 ≠ 0 ∧
    ¬(M.toInt = -(2 : Int) ^ (32 - 1) ∧ (1 : BitVec 32).toInt + 0 = -1) ∧
    ¬((7 : BitVec 32).toInt = -(2 : Int) ^ (32 - 1) ∧ (-1 : BitVec 32).toInt + 0 = -1) ∧ (-1 : BitVec 32).toInt + 1 = 0 := by
  and_intros <;> first | decide | rfl
/-- `x1 + 1` wraps to M; `x5 + 1` is 0. -/
theorem test_witness_ArithmeticWrapsUnderWrap :
    (s0 wrapCfg 0).cfg.wf ∧ (s0 wrapCfg 0).cfg.ovfPolicy = .wrap ∧ (s0 wrapCfg 0).readReg 4 = some 1 ∧
    (s0 wrapCfg 0).readReg 1 = some X ∧ M = X + BitVec.ofInt 32 1 ∧ M ≠ 0 ∧
    (s0 wrapCfg 0).readReg 5 = some (-1) ∧ (0 : BitVec 32) = -1 + BitVec.ofInt 32 1 := by
  and_intros <;> first | decide | rfl
/-- X + 1, M - 1, M * -1 and M / -1, the first values out of range. -/
theorem test_witness_ResultOverflowEndsTheRun :
    (s0 Config.ex1 0).cfg.wf ∧ (s0 Config.ex1 0).cfg.ovfPolicy = .fault ∧ (s0 Config.ex1 0).readReg 1 = some X ∧
    (s0 Config.ex1 0).readReg 2 = some M ∧ (s0 Config.ex1 0).readReg 4 = some 1 ∧ (s0 Config.ex1 0).readReg 5 = some (-1) ∧
    FitsSigned 32 ((1 : BitVec 32).toInt + 0) ∧ FitsSigned 32 ((-1 : BitVec 32).toInt + 0) ∧
    ¬FitsSigned 32 (X.toInt + ((1 : BitVec 32).toInt + 0)) ∧ ¬FitsSigned 32 (M.toInt - ((1 : BitVec 32).toInt + 0)) ∧
    ¬FitsSigned 32 (M.toInt * ((-1 : BitVec 32).toInt + 0)) ∧ M.toInt = -(2 : Int) ^ (32 - 1) ∧ (-1 : BitVec 32).toInt + 0 = -1 := by
  and_intros <;> first | decide | rfl
/-- `x1 + 1` and `x2 - 1`, just out of range at either end. -/
theorem test_witness_OperandOverflowEndsTheRun :
    (s0 Config.ex1 0).cfg.ovfPolicy = .fault ∧ (s0 Config.ex1 0).readReg (Instr.add 15 4 4 1 1).rs1 = some 1 ∧
    (s0 Config.ex1 0).readReg (Instr.add 15 4 4 1 1).rs2 = some X ∧ ¬FitsSigned 32 (X.toInt + 1) ∧
    (s0 Config.ex1 0).readReg (Instr.halt 15 0 4 2 (-1)).rs2 = some M ∧ ¬FitsSigned 32 (M.toInt + (-1)) := by
  and_intros <;> first | decide | rfl
theorem test_witness_UnwrittenSourceEndsTheRun :
    (s0 Config.ex1 0).readReg (Instr.add 15 0 3 0 0).rs1 = none ∧
    (s0 Config.ex1 0).readReg (Instr.add 15 0 0 3 0).rs1 ≠ none ∧ (s0 Config.ex1 0).readReg (Instr.add 15 0 0 3 0).rs2 = none := by
  decide
/-- Under FAULT with operand 2 at X; under WRAP past it. -/
theorem test_witness_HaltLoadStoreEndTheRun :
    (s0 Config.ex1 0).readReg 4 = some 1 ∧ (s0 Config.ex1 0).readReg 1 = some X ∧ FitsSigned 32 (X.toInt + 0) ∧
    (s0 wrapCfg 0).readReg 4 = some 1 ∧ (s0 wrapCfg 0).readReg 1 = some X ∧ (s0 wrapCfg 0).cfg.ovfPolicy = .wrap := by
  and_intros <;> first | decide | rfl
/-- A result and an error of an arithmetic instruction. -/
theorem test_witness_ArithmeticFrame :
    (Instr.add 15 0 4 4 0).op ∈ [Opcode.add, Opcode.sub, Opcode.mul, Opcode.div] ∧
    exec (.add 15 0 4 4 0) (s0 Config.ex1 0) = .next ((s0 Config.ex1 0).writeBack 0 2 .pos) ∧
    exec (.add 15 0 1 4 0) (s0 Config.ex1 0) = .next ((s0 Config.ex1 0).raise (.block (.overflow 3))) := by
  and_intros <;> first | decide | rfl
theorem test_witness_HaltLoadStoreFrame :
    (Instr.store 15 0 4 4 0).op ∈ [Opcode.halt, Opcode.load, Opcode.store] ∧
    exec (.store 15 0 4 4 0) (s0 Config.ex1 0) = .next ((s0 Config.ex1 0).raise (.block (.unsupported 2))) := by
  and_intros <;> first | decide | rfl
/-- A step that goes on, one that ends in an error, one that ends in DONE. -/
theorem test_witness_StepAdvancesOrEndsTheRun :
    step (s0 Config.ex1 0x0FC4000F) = .next ((s0 Config.ex1 0x0FC4000F).writeBack 1 15 .pos) ∧
    step (s0 Config.ex1 0x10000000) = .next ((s0 Config.ex1 0x10000000).raise (.block (.decode .opcode 4))) ∧
    step (st Config.ex1 [] []) = .next (st Config.ex1 [] []).finish := by
  and_intros <;> first | decide | rfl
theorem test_witness_StepKeepsProgramAndConfig :
    step (s0 wrapCfg 0x0FC4000F) = .next ((s0 wrapCfg 0x0FC4000F).writeBack 1 15 .pos) := rfl
/-- A next state and a fault under other values of the unread parameters. -/
theorem test_witness_StepIgnoresUnreadParameters :
    step (s0 Config.ex1 0x0FC4000F) = .next ((s0 Config.ex1 0x0FC4000F).writeBack 1 15 .pos) ∧
    step (st Config.ex1 [] []).finish = .fault .runEnded := by
  and_intros <;> first | decide | rfl
theorem test_witness_LaunchIsGood : smallCfg.wf ∧ Config.ex1.wf := by decide
/-- A good state with a word to run, and its step. -/
theorem test_witness_StepKeepsGoodStates :
    (s0 Config.ex1 0x0FC4000F).Inv ∧
    step (s0 Config.ex1 0x0FC4000F) = .next ((s0 Config.ex1 0x0FC4000F).writeBack 1 15 .pos) :=
  ⟨⟨by decide, by decide, by decide, fun _ _ => by decide, by decide⟩, rfl⟩
/-- With one word left and with none. -/
theorem test_witness_EveryRunEnds :
    ((s0 Config.ex1 0).status = .running ∧ (s0 Config.ex1 0).idx ≤ (s0 Config.ex1 0).prog.length) ∧
    (State.reset.status = .running ∧ State.reset.idx ≤ State.reset.prog.length) := by decide

end Sys2Proof.Tests
end

section
/-!
The scope rules of 00_scope.md: low bits as masking (R23), the encoder's independence of IN_W (R17), and the parameters that no step
reads (R18, R233, log 9).
-/

/-! ## Low bits (R23) -/

namespace Sys2Proof

/-- Masking an integer of either sign by `2^n - 1` keeps its low `n` bits. -/
theorem lowBits_eq_land_mask (n : Nat) (v : Int) : (lowBits n v : Int) = Int.land v ((2 ^ n - 1 : Nat) : Int) := by
  have hbit (i : Nat) : (lowBits n v).testBit i = (decide (i < n) && v.testBit i) := by
    rw [lowBits_testBit, getLsbD_ofInt]
  cases v with
  | ofNat m =>
    change _ = ((m &&& (2 ^ n - 1) : Nat) : Int)
    refine congrArg Nat.cast (Nat.eq_of_testBit_eq fun i => ?_)
    rw [hbit, Nat.testBit_and, Nat.testBit_two_pow_sub_one, Bool.and_comm]
    rfl
  | negSucc m =>
    change _ = ((Nat.ldiff (2 ^ n - 1) m : Nat) : Int)
    refine congrArg Nat.cast (Nat.eq_of_testBit_eq fun i => ?_)
    rw [hbit, Nat.testBit_ldiff, Nat.testBit_two_pow_sub_one]
    rfl

/-- Settles O6: the bits are compared one by one, on the two signs of `v`. -/
theorem lowBitsIsMasking : Obligations.LowBitsIsMasking := by
  intro n v
  refine ⟨?_, lowBits_cast n v, lowBits_lt n v⟩
  rw [lowBits_eq_land_mask, Nat.cast_sub Nat.one_le_two_pow, Nat.cast_pow, Nat.cast_ofNat, Nat.cast_one]

/-! ## The width of the encoder's inputs (R17) -/

/-- A port at least `n` bits wide carries the low `n` bits of its integer. -/
theorem lowBits_toInt_ofInt {n m : Nat} (h : n ≤ m) (v : Int) : lowBits n (BitVec.ofInt m v).toInt = lowBits n v := by
  have hdvd : (2 : Int) ^ n ∣ (2 : Int) ^ m := pow_dvd_pow 2 h
  apply Nat.cast_injective (R := Int)
  rw [lowBits_cast, lowBits_cast]
  calc (BitVec.ofInt m v).toInt % (2 : Int) ^ n
      = (BitVec.ofInt m v).toInt % (2 : Int) ^ m % (2 : Int) ^ n := (Int.emod_emod_of_dvd _ hdvd).symm
    _ = v % (2 : Int) ^ m % (2 : Int) ^ n := by
      rw [BitVec.toInt_ofInt, ← Nat.cast_ofNat (R := Int), ← Nat.cast_pow, Int.bmod_emod]
    _ = v % (2 : Int) ^ n := Int.emod_emod_of_dvd _ hdvd

/-- insert takes no more of its value than a port at least as wide as the field carries (R104). -/
theorem BitField.insert_toInt_ofInt (f : BitField) {m : Nat} (h : f.width ≤ m) (v : Int) (w : Word) :
    f.insert (BitVec.ofInt m v).toInt w = f.insert v w := by
  rw [insert, insert, lowBits_toInt_ofInt h]

/-- Settles O22: no codec field is wider than 10 bits, so each of the six inserts takes only bits that its port carries. -/
theorem encoderWordIndependentOfInputWidth : Obligations.EncoderWordIndependentOfInputWidth := by
  intro cfg op cond rt rs1 rs2 off hw
  have hfit : ∀ f ∈ codecFields, f.width ≤ cfg.inW := fun f hf =>
    Nat.le_trans ((by decide : ∀ f ∈ codecFields, f.width ≤ 10) f hf) hw
  simp only [codecFields, List.forall_mem_cons] at hfit
  obtain ⟨hop, hcond, hrt, hrs1, hrs2, hoff, -⟩ := hfit
  simp only [Machine.encoderPorts, encodeRaw, BitField.insert_toInt_ofInt, hop, hcond, hrt, hrs1, hrs2, hoff]

end Sys2Proof

/-! ## The parameters that no step reads (R18, R233, log 9) -/

namespace Sys2Proof.Machine

/-! What `step` answers in each of its cases, so that a proof that compares two states need not unfold it. -/

section
variable {s : State} {w : Word}

theorem step_of_not_running (h : s.status ≠ .running) : step s = .fault .runEnded := by
  unfold step
  split
  · exact absurd ‹_› h
  · rfl

theorem step_of_atEnd (hr : s.status = .running) (h : s.idx = s.prog.length) : step s = .next s.finish := by
  simp [step, hr, State.atEnd, h]

theorem step_of_past (hr : s.status = .running) (h : s.prog.length < s.idx) : step s = .fault .indexPastProgram := by
  have hne : s.idx ≠ s.prog.length := by omega
  have hw : s.prog[s.idx]? = none := List.getElem?_eq_none (by omega)
  simp [step, hr, State.atEnd, hne, State.nextWord, hw]

theorem step_of_decode_error {e : Err} (hr : s.status = .running) (hw : s.prog[s.idx]? = some w)
    (hd : decode s.cfg w = .error e) : step s = .next (s.raise (.block e)) := by
  have hne : s.idx ≠ s.prog.length := (List.getElem?_eq_some_iff.1 hw).1.ne
  simp [step, hr, State.atEnd, hne, State.nextWord, hw, hd]

theorem step_of_decode_ok {i : Instr} (hr : s.status = .running) (hw : s.prog[s.idx]? = some w)
    (hd : decode s.cfg w = .ok i) : step s = .next (dispatchToAlu i.op i.rt i.rs1 i.rs2 i.off s) := by
  have hne : s.idx ≠ s.prog.length := (List.getElem?_eq_some_iff.1 hw).1.ne
  rw [← exec_eq_dispatchToAlu]
  simp [step, hr, State.atEnd, hne, State.nextWord, hw, hd]

end

section
variable (u : Unread) (s : State)

theorem finish_withUnread : (s.withUnread u).finish = s.finish.withUnread u := rfl

theorem raise_withUnread (e : RunErr) : (s.withUnread u).raise e = (s.raise e).withUnread u := rfl

theorem writeBack_withUnread (rt : Reg) (r : BitVec s.cfg.xlen) (c : Cc) :
    (s.withUnread u).writeBack rt r c = (s.writeBack rt r c).withUnread u := rfl

/-- decode reads COND_VALID alone of the parameters (R123). -/
theorem decode_withUnread (w : Word) : decode (s.withUnread u).cfg w = decode s.cfg w := rfl

/-- The driver's use of the ALU reads XLEN and OVF_POLICY alone of the parameters (R159). -/
theorem dispatchToAlu_withUnread (op : Opcode) (rt rs1 rs2 : Reg) (off : Int) :
    dispatchToAlu op rt rs1 rs2 off (s.withUnread u) = (dispatchToAlu op rt rs1 rs2 off s).withUnread u := by
  rcases dispatchToAlu_cases op rt rs1 rs2 off s with ⟨e, he, ht⟩ | ⟨out, ho, ht⟩
  · rw [ht, ← raise_withUnread]
    exact dispatchToAlu_error he
  · rw [ht, ← writeBack_withUnread]
    exact dispatchToAlu_ok ho

/-- A step and the step under other values of the unread parameters go through the same case of `step`. -/
theorem step_withUnread_cases :
    (∃ t, step s = .next t ∧ step (s.withUnread u) = .next (t.withUnread u)) ∨
    (∃ f, step s = .fault f ∧ step (s.withUnread u) = .fault f) := by
  rcases step_cases s with ⟨hr, hs⟩ | ⟨hr, hend, hs⟩ | ⟨hr, hpast, hs⟩ | ⟨w, e, hr, hw, hd, hs⟩ | ⟨w, i, hr, hw, hd, hs⟩
  · exact .inr ⟨_, hs, step_of_not_running hr⟩
  · refine .inl ⟨_, hs, ?_⟩
    rw [← finish_withUnread]
    exact step_of_atEnd hr hend
  · exact .inr ⟨_, hs, step_of_past hr hpast⟩
  · refine .inl ⟨_, hs, ?_⟩
    rw [← decode_withUnread u] at hd
    rw [← raise_withUnread]
    exact step_of_decode_error hr hw hd
  · refine .inl ⟨_, hs, ?_⟩
    rw [← decode_withUnread u] at hd
    rw [← dispatchToAlu_withUnread]
    exact step_of_decode_ok hr hw hd

end

/-- Settles O57: both steps go on to corresponding states or stop with one fault, so neither is refused. -/
theorem stepIgnoresUnreadParameters : Obligations.StepIgnoresUnreadParameters := by
  intro u s
  rcases step_withUnread_cases u s with ⟨t, hs, hu⟩ | ⟨f, hs, hu⟩
  · simp [hs, hu]
  · simp [hs, hu]

end Sys2Proof.Machine
end

section
/-!
The interface and the constant state of 10_state.md: the encoder's range check accepts exactly the well-formed instructions (R47,
R118, R128), and no step writes the program or the parameters (R35, R181).
-/

/-! ## The range check (R118, R128) -/

namespace Sys2Proof

section
variable (op : Opcode) (cond : Fin 16) (rt rs1 rs2 : Reg) (off : Int)

@[simp] theorem Instr.op_ofFields : (Instr.ofFields op cond rt rs1 rs2 off).op = op := by cases op <;> rfl
@[simp] theorem Instr.cond_ofFields : (Instr.ofFields op cond rt rs1 rs2 off).cond = cond := by cases op <;> rfl
@[simp] theorem Instr.rt_ofFields : (Instr.ofFields op cond rt rs1 rs2 off).rt = rt := by cases op <;> rfl
@[simp] theorem Instr.rs1_ofFields : (Instr.ofFields op cond rt rs1 rs2 off).rs1 = rs1 := by cases op <;> rfl
@[simp] theorem Instr.rs2_ofFields : (Instr.ofFields op cond rt rs1 rs2 off).rs2 = rs2 := by cases op <;> rfl
@[simp] theorem Instr.off_ofFields : (Instr.ofFields op cond rt rs1 rs2 off).off = off := by cases op <;> rfl

end

/-- The ordinals are the seven of the opcode map (R116). -/
theorem Opcode.ord_mem (o : Opcode) : (o.ord : Int) ∈ ([0, 1, 2, 3, 5, 6, 7] : List Int) := by cases o <;> decide

theorem Opcode.exists_ord_of_mem {n : Int} (h : n ∈ ([0, 1, 2, 3, 5, 6, 7] : List Int)) : ∃ o : Opcode, n = o.ord := by
  simp only [List.mem_cons, List.not_mem_nil, or_false] at h
  rcases h with rfl | rfl | rfl | rfl | rfl | rfl | rfl
  · exact ⟨.halt, rfl⟩
  · exact ⟨.load, rfl⟩
  · exact ⟨.store, rfl⟩
  · exact ⟨.add, rfl⟩
  · exact ⟨.sub, rfl⟩
  · exact ⟨.mul, rfl⟩
  · exact ⟨.div, rfl⟩

/-- A 4-bit field's value passes its bounds. -/
theorem val_mem_bounds (j : Fin 16) : 0 ≤ (j.val : Int) ∧ (j.val : Int) ≤ 15 := by omega

/-- An integer within the bounds of a 4-bit field is the value of one. -/
theorem exists_val_of_mem_bounds {n : Int} (h : 0 ≤ n ∧ n ≤ 15) : ∃ j : Fin 16, n = j.val :=
  ⟨⟨n.toNat, by omega⟩, (Int.toNat_of_nonneg h.1).symm⟩

/-- The check accepts only an opcode's ordinal and values of 4-bit fields. -/
theorem exists_fields_of_inRangeRaw {cfg : Config} {op cond rt rs1 rs2 off : Int}
    (h : inRangeRaw cfg op cond rt rs1 rs2 off = true) :
    ∃ (o : Opcode) (c : Fin 16) (r r1 r2 : Reg), op = o.ord ∧ cond = c.val ∧ rt = r.val ∧ rs1 = r1.val ∧ rs2 = r2.val := by
  simp only [inRangeRaw, Bool.and_eq_true, decide_eq_true_eq] at h
  obtain ⟨⟨⟨⟨⟨⟨hop, hcond⟩, -⟩, hrt⟩, hrs1⟩, hrs2⟩, -⟩ := h
  obtain ⟨o, ho⟩ := Opcode.exists_ord_of_mem hop
  obtain ⟨c, hc⟩ := exists_val_of_mem_bounds hcond
  obtain ⟨r, hr⟩ := exists_val_of_mem_bounds hrt
  obtain ⟨r1, hr1⟩ := exists_val_of_mem_bounds hrs1
  obtain ⟨r2, hr2⟩ := exists_val_of_mem_bounds hrs2
  exact ⟨o, c, r, r1, r2, ho, hc, hr, hr1, hr2⟩

/-- On an instruction's own fields the check is well-formedness: what is left to check is the condition and the offset. -/
theorem inRangeRaw_instr (cfg : Config) (i : Instr) :
    inRangeRaw cfg i.op.ord i.cond.val i.rt.val i.rs1.val i.rs2.val i.off = true ↔ i.wellFormed cfg := by
  have hc : Fin.ofNat 16 (i.cond.val : Int).toNat = i.cond := by simp
  simp only [inRangeRaw, Bool.and_eq_true, decide_eq_true_eq, i.op.ord_mem, val_mem_bounds, hc, true_and, and_true]

theorem inRangeRaw_iff (cfg : Config) (op cond rt rs1 rs2 off : Int) :
    inRangeRaw cfg op cond rt rs1 rs2 off = true ↔
      ∃ i : Instr, i.wellFormed cfg ∧ op = i.op.ord ∧ cond = i.cond.val ∧ rt = i.rt.val ∧ rs1 = i.rs1.val ∧
        rs2 = i.rs2.val ∧ off = i.off := by
  constructor
  · intro h
    obtain ⟨o, c, r, r1, r2, rfl, rfl, rfl, rfl, rfl⟩ := exists_fields_of_inRangeRaw h
    exact ⟨Instr.ofFields o c r r1 r2 off, (inRangeRaw_instr cfg _).1 (by simpa using h), by simp⟩
  · rintro ⟨i, hwf, rfl, rfl, rfl, rfl, rfl, rfl⟩
    exact (inRangeRaw_instr cfg i).2 hwf

/-- Settles O21: accepted integers are an opcode's ordinal and 4-bit values, so they are the fields of an instruction, and on those
the check is well-formedness; the ports carry both functions by definition. -/
theorem inRangeAcceptsExactlyWellFormed : Obligations.InRangeAcceptsExactlyWellFormed :=
  fun cfg op cond rt rs1 rs2 off => ⟨inRangeRaw_iff cfg op cond rt rs1 rs2 off, fun _ => ⟨rfl, rfl⟩⟩

end Sys2Proof

/-! ## The program and the parameters (R35, R181) -/

namespace Sys2Proof.Machine

theorem dispatchToAlu_keeps_prog_cfg (op : Opcode) (rt rs1 rs2 : Reg) (off : Int) (s : State) :
    (dispatchToAlu op rt rs1 rs2 off s).prog = s.prog ∧ (dispatchToAlu op rt rs1 rs2 off s).cfg = s.cfg := by
  rcases dispatchToAlu_cases op rt rs1 rs2 off s with ⟨e, -, ht⟩ | ⟨out, -, ht⟩
  · rw [ht]; exact ⟨raise_prog s e, raise_cfg s e⟩
  · rw [ht]; exact ⟨writeBack_prog s rt out.result out.cond, writeBack_cfg s rt out.result out.cond⟩

/-- Settles O55: a step that answers a next state finishes, ends the run in an error or dispatches, and none of these writes the
program or the parameters. -/
theorem stepKeepsProgramAndConfig : Obligations.StepKeepsProgramAndConfig := by
  intro s t h
  rcases step_cases s with ⟨-, hs⟩ | ⟨-, -, hs⟩ | ⟨-, -, hs⟩ | ⟨w, e, -, -, -, hs⟩ | ⟨w, i, -, -, -, hs⟩ <;> rw [hs] at h
  · cases h
  · cases h; exact ⟨finish_prog s, finish_cfg s⟩
  · cases h
  · cases h; exact ⟨raise_prog s _, raise_cfg s _⟩
  · cases h; exact dispatchToAlu_keeps_prog_cfg i.op i.rt i.rs1 i.rs2 i.off s

end Sys2Proof.Machine
end

section
/-!
The word layout of 30_encoding.md: the six fields tile bits 0 to 30 (R67, R69, R115), decode reads the fields and nothing else (R81,
R85, R121), and the offset's value (R74, R75).
-/

/-! ## The field table (R67, R69, R115) -/

namespace Sys2Proof

/-- Settles O13: the table is six closed fields, so each clause is evaluated. -/
theorem fieldTableTilesTheWord : Obligations.FieldTableTilesTheWord := by
  refine ⟨rfl, rfl, rfl, rfl, rfl, rfl, ?masks, ?widths, ?disjoint, ?cover, ?tile⟩
  case masks => decide
  case widths => decide
  case disjoint => decide
  case cover => decide
  case tile => decide

theorem msb_lt_of_mem_codecFields : ∀ f ∈ codecFields, f.msb < 31 := by decide

/-- Every bit below the reserved one lies in a field of the table. -/
theorem exists_mem_codecFields : ∀ i < 31, ∃ f ∈ codecFields, f.lsb ≤ i ∧ i ≤ f.msb := by decide

/-! ## Fields and the reserved bit (R81) -/

/-- The mask of bits 0 to 30 keeps each of them and clears bit 31. -/
theorem getLsbD_and_lowMask (w : Word) (i : Nat) : (w &&& 0x7FFFFFFF).getLsbD i = (decide (i < 31) && w.getLsbD i) := by
  have hmask : (0x7FFFFFFF : Word).getLsbD i = decide (i < 31) := by
    change (2 ^ 31 - 1).testBit i = _
    exact Nat.testBit_two_pow_sub_one 31 i
  rw [BitVec.getLsbD_and, hmask, Bool.and_comm]

/-- A field below bit 31 reads the same from the masked word. -/
theorem BitField.extract_and_lowMask (f : BitField) (h : f.msb < 31) (w : Word) :
    f.extract (w &&& 0x7FFFFFFF) = f.extract w := by
  have hw := f.lsb_add_width
  apply Nat.eq_of_testBit_eq
  intro i
  rw [extract_testBit, extract_testBit, getLsbD_and_lowMask]
  by_cases hi : i < f.width
  · have hlt : f.lsb + i < 31 := by omega
    simp [hlt]
  · simp [hi]

/-- A bit of the word inside a field is a bit of what the field reads. -/
theorem BitField.getLsbD_eq_extract_testBit (f : BitField) (w : Word) {i : Nat} (hl : f.lsb ≤ i) (hm : i ≤ f.msb) :
    w.getLsbD i = (f.extract w).testBit (i - f.lsb) := by
  have hw := f.lsb_add_width
  have hlt : i - f.lsb < f.width := by omega
  have hi : f.lsb + (i - f.lsb) = i := by omega
  simp [extract_testBit, hlt, hi]

/-- Two words agree on bits 0 to 30 exactly when every field reads the same from both (R67). -/
theorem and_lowMask_eq_iff (w w' : Word) :
    w &&& 0x7FFFFFFF = w' &&& 0x7FFFFFFF ↔ ∀ f ∈ codecFields, f.extract w = f.extract w' := by
  constructor
  · intro h f hf
    have hm := msb_lt_of_mem_codecFields f hf
    rw [← f.extract_and_lowMask hm w, h, f.extract_and_lowMask hm w']
  · intro h
    apply BitVec.eq_of_getLsbD_eq
    intro i _
    rw [getLsbD_and_lowMask, getLsbD_and_lowMask]
    by_cases hi : i < 31
    · obtain ⟨f, hf, hl, hm⟩ := exists_mem_codecFields i hi
      rw [f.getLsbD_eq_extract_testBit w hl hm, f.getLsbD_eq_extract_testBit w' hl hm, h f hf]
    · simp [hi]

/-- An insert into a field below bit 31 leaves bit 31. -/
theorem BitField.getLsbD_31_insert (f : BitField) (h : f.msb < 31) (v : Int) (w : Word) :
    (f.insert v w).getLsbD 31 = w.getLsbD 31 := by
  rw [f.getLsbD_insert v w (by decide), if_neg (by omega)]

/-- encode writes 0 to the reserved bit. -/
theorem getLsbD_31_encodeRaw (op cond rt rs1 rs2 off : Int) : (encodeRaw op cond rt rs1 rs2 off).getLsbD 31 = false := by
  have h := msb_lt_of_mem_codecFields
  simp only [codecFields, List.forall_mem_cons] at h
  obtain ⟨hop, hcond, hrt, hrs1, hrs2, hoff, -⟩ := h
  simp only [encodeRaw, BitField.getLsbD_31_insert, hop, hcond, hrt, hrs1, hrs2, hoff]
  rfl

/-! ## What decode reads (R119, R121) -/

/-- The opcode map and its inverse (R116). -/
theorem Opcode.ofOrd_eq_some_iff {n : Nat} {o : Opcode} : Opcode.ofOrd n = some o ↔ n = o.ord := by
  constructor
  · intro h
    unfold Opcode.ofOrd at h
    split at h <;> cases h <;> rfl
  · rintro rfl
    cases o <;> rfl

/-- An instruction is its opcode with its five fields. -/
theorem Instr.ofFields_eq_iff {op : Opcode} {cond : Fin 16} {rt rs1 rs2 : Reg} {off : Int} {i : Instr} :
    Instr.ofFields op cond rt rs1 rs2 off = i ↔
      op = i.op ∧ cond = i.cond ∧ rt = i.rt ∧ rs1 = i.rs1 ∧ rs2 = i.rs2 ∧ off = i.off := by
  constructor
  · rintro rfl
    simp
  · rintro ⟨rfl, rfl, rfl, rfl, rfl, rfl⟩
    cases i <;> rfl

/-- decode answers an instruction exactly when its condition is recognised and its six fields are what the word's read. -/
theorem decode_eq_ok_iff {cfg : Config} {w : Word} {i : Instr} :
    decode cfg w = .ok i ↔
      cfg.condOk i.cond = true ∧ fieldOpcode.extract w = i.op.ord ∧ fieldCond.index w = i.cond ∧ fieldRt.index w = i.rt ∧
        fieldRs1.index w = i.rs1 ∧ fieldRs2.index w = i.rs2 ∧ fieldOffset.extractSigned w = i.off := by
  rw [← Opcode.ofOrd_eq_some_iff]
  unfold decode
  cases Opcode.ofOrd (fieldOpcode.extract w) with
  | none => simp
  | some op =>
    by_cases hc : cfg.condOk (fieldCond.index w) = true
    · simp only [hc, if_true, Except.ok.injEq, Instr.ofFields_eq_iff, Option.some.injEq]
      constructor
      · rintro ⟨hop, hcond, hrest⟩
        exact ⟨hcond ▸ hc, hop, hcond, hrest⟩
      · rintro ⟨-, h⟩
        exact h
    · simp only [hc]
      constructor
      · intro h
        cases h
      · rintro ⟨hc', -, hcond, -⟩
        exact absurd (hcond ▸ hc') hc

/-- decode depends on the fields alone, errors included. -/
theorem decode_congr {w w' : Word} (cfg : Config) (h : ∀ f ∈ codecFields, f.extract w = f.extract w') :
    decode cfg w = decode cfg w' := by
  simp only [codecFields, List.forall_mem_cons] at h
  obtain ⟨hop, hcond, hrt, hrs1, hrs2, hoff, -⟩ := h
  unfold decode BitField.index BitField.extractSigned
  rw [hop, hcond, hrt, hrs1, hrs2, hoff]

/-- The signed reading loses nothing: its low bits are the field's. -/
theorem BitField.lowBits_extractSigned (f : BitField) (w : Word) : lowBits f.width (f.extractSigned w) = f.extract w := by
  rw [lowBits_eq_toNat_ofInt, extractSigned_eq_slice, BitVec.ofInt_toInt, extract_eq_slice]

/-- What each field of a decoded word holds. -/
theorem extract_of_decode_eq_ok {cfg : Config} {w : Word} {i : Instr} (h : decode cfg w = .ok i) :
    fieldOpcode.extract w = i.op.ord ∧ fieldCond.extract w = i.cond.val ∧ fieldRt.extract w = i.rt.val ∧
      fieldRs1.extract w = i.rs1.val ∧ fieldRs2.extract w = i.rs2.val ∧ fieldOffset.extract w = lowBits 10 i.off := by
  obtain ⟨-, hop, hcond, hrt, hrs1, hrs2, hoff⟩ := decode_eq_ok_iff.1 h
  rw [← hcond, ← hrt, ← hrs1, ← hrs2, ← hoff, BitField.index_val _ _ rfl, BitField.index_val _ _ rfl,
    BitField.index_val _ _ rfl, BitField.index_val _ _ rfl]
  exact ⟨hop, rfl, rfl, rfl, rfl, (fieldOffset.lowBits_extractSigned w).symm⟩

/-- A decoded instruction fixes every field of its word. -/
theorem extract_eq_of_decode_eq_ok {cfg : Config} {w w' : Word} {i : Instr} (h : decode cfg w = .ok i)
    (h' : decode cfg w' = .ok i) : ∀ f ∈ codecFields, f.extract w = f.extract w' := by
  obtain ⟨hop, hcond, hrt, hrs1, hrs2, hoff⟩ := extract_of_decode_eq_ok h
  obtain ⟨hop', hcond', hrt', hrs1', hrs2', hoff'⟩ := extract_of_decode_eq_ok h'
  simp only [codecFields, List.forall_mem_cons]
  exact ⟨hop.trans hop'.symm, hcond.trans hcond'.symm, hrt.trans hrt'.symm, hrs1.trans hrs1'.symm, hrs2.trans hrs2'.symm,
    hoff.trans hoff'.symm, by simp⟩

/-- Of the parameters decode reads COND_VALID alone, at the word's own condition (R123). -/
theorem decode_eq_ok_of_condOk {cfg cfg' : Config} {w : Word} {i : Instr} (h : decode cfg w = .ok i)
    (hc : cfg'.condOk i.cond = true) : decode cfg' w = .ok i :=
  decode_eq_ok_iff.2 ⟨hc, (decode_eq_ok_iff.1 h).2⟩

/-! ## Words and instructions (R66, R77, R81, R85) -/

/-- Settles O14: the words are evaluated under one configuration, and every other that recognises condition 15 agrees with it. -/
theorem writtenOutWordsDecode : Obligations.WrittenOutWordsDecode := by
  intro cfg h
  have key {w : Word} {i : Instr} (hw : decode Config.ex1 w = .ok i) (hi : i.cond = 15) : decode cfg w = .ok i :=
    decode_eq_ok_of_condOk hw (hi ▸ h)
  exact ⟨key (by decide) rfl, key (by decide) rfl, key (by decide) rfl, key (by decide) rfl, key (by decide) rfl,
    key (by decide) rfl, key (by decide) rfl⟩

/-- Settles O17: no field holds bit 31, so no field reads it and no insert writes it. -/
theorem bit31IsIgnoredAndWrittenZero : Obligations.Bit31IsIgnoredAndWrittenZero := by
  refine ⟨fun cfg w => decode_congr cfg fun f hf => ?_, getLsbD_31_encodeRaw⟩
  exact (f.extract_and_lowMask (msb_lt_of_mem_codecFields f hf) w).symm

/-- Settles O18: an instruction fixes the six fields, these are bits 0 to 30, and decode reads nothing else. -/
theorem sameInstructionIffSameLowBits : Obligations.SameInstructionIffSameLowBits := by
  intro cfg w w'
  rw [and_lowMask_eq_iff]
  constructor
  · rintro ⟨i, h, h'⟩
    exact ⟨⟨i, h⟩, ⟨i, h'⟩, extract_eq_of_decode_eq_ok h h'⟩
  · rintro ⟨⟨i, h⟩, -, heq⟩
    exact ⟨i, h, decode_congr cfg heq ▸ h⟩

/-! ## The offset (R74, R75) -/

/-- The two's-complement value of the low ten bits, as R74 writes it. -/
theorem toInt_extractLsb'_offset (w : Word) :
    (w.extractLsb' 0 10).toInt = ((w.extractLsb' 0 10).toNat : Int) - 1024 * (if w.getLsbD 9 then 1 else 0) := by
  have hmsb : (w.extractLsb' 0 10).msb = w.getLsbD 9 := by simp [BitVec.msb_eq_getLsbD_last]
  rw [BitVec.toInt_eq_msb_cond, hmsb]
  cases w.getLsbD 9 <;> simp

theorem off_of_decode_eq_ok {cfg : Config} {w : Word} {i : Instr} (h : decode cfg w = .ok i) :
    i.off = (w.extractLsb' 0 10).toInt := by
  obtain ⟨-, -, -, -, -, -, hoff⟩ := decode_eq_ok_iff.1 h
  rw [← hoff]
  exact fieldOffset.extractSigned_eq_slice w

end Sys2Proof

namespace Sys2Proof.Machine

/-- A decoder that shows data shows the word's low ten bits, sign-extended, on `dec_off`. -/
theorem dec_off_of_data_eq_some {cfg : Config} {w : Word} {d : DecData cfg.xlen} (h : (decoderPorts cfg w).data = some d) :
    d.dec_off = (w.extractLsb' 0 10).signExtend cfg.xlen := by
  unfold decoderPorts at h
  split at h <;> cases h
  rfl

/-- Settles O16: XLEN is at least 11, so the sign extension to it keeps the ten bits' value. -/
theorem offsetPortHoldsTheOffset : Obligations.OffsetPortHoldsTheOffset := by
  rintro cfg w i d ⟨hxlen, -, -⟩ hi hd
  have hrange := fitsSigned_toInt (w.extractLsb' 0 10)
  rw [off_of_decode_eq_ok hi, dec_off_of_data_eq_some hd]
  exact ⟨BitVec.toInt_signExtend_of_le (by omega), toInt_extractLsb'_offset w, hrange.1, hrange.2⟩

end Sys2Proof.Machine
end

section
/-!
The bit field of 40_bitfield.md: construct and the two masks (R95 to R97), the two readings (R99 to R101, R112), insert (R103, R106 to
R111) and the unit's ports (R45, R104).
-/

namespace Sys2Proof

/-! ## Low bits and the arithmetic shift (R23, R100) -/

theorem lowBits_lowBits (n : Nat) (v : Int) : lowBits n (lowBits n v) = lowBits n v := lowBits_natCast (lowBits_lt n v)

/-- Adding `2^n` leaves the low `n` bits. -/
theorem lowBits_add_two_pow (n : Nat) (v : Int) : lowBits n (v + (2 : Int) ^ n) = lowBits n v := by
  apply Nat.cast_injective (R := Int)
  rw [lowBits_cast, lowBits_cast, Int.add_emod_right]

/-- An arithmetic right shift moves the bits of an integer of either sign down. -/
theorem testBit_int_shiftRight (v : Int) (k i : Nat) : (v >>> k).testBit i = v.testBit (k + i) := by
  cases v with
  | ofNat m => exact Nat.testBit_shiftRight m
  | negSucc m => exact congrArg not (Nat.testBit_shiftRight m)

namespace BitField

variable (f : BitField)

/-! ## construct (R96) and the masks (R95, R97) -/

/-- Settles O1: the two clauses are construct's check and its complement. -/
theorem constructAcceptsExactlyLegalRanges : Obligations.ConstructAcceptsExactlyLegalRanges := by
  intro lsb msb
  constructor
  · rintro ⟨hl, hm, hle, hlt⟩
    exact ⟨_, dif_pos ⟨hl, hm, hle, hlt⟩, Int.toNat_of_nonneg hl, Int.toNat_of_nonneg hm⟩
  · intro h
    exact dif_neg (by omega)

/-- The shift to `lsb` loses no bit of the mask. -/
theorem wordMask_toNat : f.wordMask.toNat = f.fieldMask * 2 ^ f.lsb := by
  have hfit : f.fieldMask * 2 ^ f.lsb < 2 ^ 32 := by
    calc f.fieldMask * 2 ^ f.lsb
        < 2 ^ f.width * 2 ^ f.lsb := Nat.mul_lt_mul_of_pos_right (Nat.sub_one_lt (by positivity)) (by positivity)
      _ = 2 ^ (f.msb + 1) := by rw [← pow_add, Nat.add_comm, lsb_add_width]
      _ ≤ 2 ^ 32 := Nat.pow_le_pow_right (by decide) f.inWord
  rw [wordMask, BitVec.toNat_shiftLeft, BitVec.toNat_ofNat, Nat.mod_eq_of_lt f.fieldMask_lt, Nat.shiftLeft_eq,
    Nat.mod_eq_of_lt hfit]

/-- Settles O2: the bounds are the field's own, and the mask's bits are those of `2^width - 1` moved up by `lsb`. -/
theorem fieldMasksCoverTheField : Obligations.FieldMasksCoverTheField := fun f =>
  ⟨f.ordered, Nat.le_of_lt_succ f.inWord, rfl, f.width_pos, f.width_le, rfl, f.wordMask_toNat,
    fun _ hi => f.getLsbD_wordMask hi⟩

/-! ## extract and extract_signed (R99 to R101, R112) -/

/-- The bits outside the word mask do not matter to extract. -/
theorem extract_and_wordMask (w : Word) : f.extract (w &&& f.wordMask) = f.extract w := by
  have hw := f.lsb_add_width
  have hm := f.inWord
  apply Nat.eq_of_testBit_eq
  intro i
  rw [extract_testBit, extract_testBit, BitVec.getLsbD_and]
  by_cases hi : i < f.width
  · have hin : f.lsb ≤ f.lsb + i ∧ f.lsb + i ≤ f.msb := by omega
    rw [f.getLsbD_wordMask (by omega), decide_eq_true hin, Bool.and_true]
  · simp [hi]

/-- Settles O3: extract is the slice, and two words that agree under the mask have one masked word to read. -/
theorem extractReturnsTheSlice : Obligations.ExtractReturnsTheSlice := by
  intro f w
  refine ⟨f.extract_eq_slice w, Nat.le_sub_one_of_lt (f.extract_lt w), fun w' h => ?_⟩
  rw [← f.extract_and_wordMask w', ← h, f.extract_and_wordMask w]

/-- Settles O4: bit `i` of either side is bit `lsb + i` of the integer, and inside the field this is below 32. -/
theorem extractOfHostIntegerSeesLow32 : Obligations.ExtractOfHostIntegerSeesLow32 := by
  intro f v
  have hw := f.lsb_add_width
  have hm := f.inWord
  apply Nat.eq_of_testBit_eq
  intro i
  rw [extract_testBit, getLsbD_ofInt, lowBits_testBit, getLsbD_ofInt, testBit_int_shiftRight]
  by_cases hi : i < f.width
  · have hlt : f.lsb + i < 32 := by omega
    simp [hlt]
  · simp [hi]

/-- The top bit of what extract returns is word bit `msb`. -/
theorem extract_testBit_top (w : Word) : (f.extract w).testBit (f.width - 1) = w.getLsbD f.msb := by
  have hw := f.lsb_add_width
  have hpos := f.width_pos
  have htop : f.lsb + (f.width - 1) = f.msb := by omega
  rw [extract_testBit, htop, decide_eq_true (by omega), Bool.true_and]

theorem extractSigned_eq_extract_sub (w : Word) :
    f.extractSigned w = (f.extract w : Int) - (2 : Int) ^ f.width * (if w.getLsbD f.msb then 1 else 0) := by
  rw [extractSigned, signedOf, extract_testBit_top]
  cases w.getLsbD f.msb <;> simp

/-- Settles O5: extract_signed is the slice as a signed bit vector, so it lies in that range and its low bits are the slice. -/
theorem extractSignedIsTwosComplement : Obligations.ExtractSignedIsTwosComplement := by
  intro f w
  refine ⟨f.extractSigned_eq_extract_sub w, ?low, ?high, (f.lowBits_extractSigned w).symm⟩ <;> rw [extractSigned_eq_slice]
  case low => exact BitVec.le_toInt _
  case high => exact Int.le_sub_one_of_lt BitVec.toInt_lt

/-! ## insert (R103, R106 to R111) -/

/-- insert takes the low `width` bits of its value alone (R104). -/
theorem insert_congr {u v : Int} (h : lowBits f.width u = lowBits f.width v) (w : Word) : f.insert u w = f.insert v w := by
  rw [insert, insert, h]

/-- What insert wrote is what extract reads. -/
theorem extract_insert (v : Int) (w : Word) : f.extract (f.insert v w) = lowBits f.width v := by
  have hw := f.lsb_add_width
  have hm := f.inWord
  apply Nat.eq_of_testBit_eq
  intro i
  rw [extract_testBit, lowBits_testBit]
  by_cases hi : i < f.width
  · rw [f.getLsbD_insert v w (by omega), if_pos (by omega), Nat.add_sub_cancel_left, decide_eq_true hi, Bool.true_and]
  · rw [decide_eq_false hi, Bool.false_and, BitVec.getLsbD_of_ge _ _ (by omega)]

/-- insert writes no bit outside the word mask. -/
theorem insert_and_not_wordMask (v : Int) (w : Word) : f.insert v w &&& ~~~f.wordMask = w &&& ~~~f.wordMask := by
  apply BitVec.eq_of_getLsbD_eq
  intro i hi
  rw [BitVec.getLsbD_and, BitVec.getLsbD_and, BitVec.getLsbD_not, f.getLsbD_wordMask hi, f.getLsbD_insert v w hi]
  by_cases hin : f.lsb ≤ i ∧ i ≤ f.msb
  · simp [hin]
  · rw [if_neg hin]

/-- A word is what the field reads from it together with its bits outside the field. -/
theorem eq_of_extract_eq {w w' : Word} (hin : f.extract w = f.extract w')
    (hout : w &&& ~~~f.wordMask = w' &&& ~~~f.wordMask) : w = w' := by
  apply BitVec.eq_of_getLsbD_eq
  intro i hi
  by_cases h : f.lsb ≤ i ∧ i ≤ f.msb
  · rw [f.getLsbD_eq_extract_testBit w h.1 h.2, hin, ← f.getLsbD_eq_extract_testBit w' h.1 h.2]
  · have hbit := congrArg (BitVec.getLsbD · i) hout
    simpa only [BitVec.getLsbD_and, BitVec.getLsbD_not, f.getLsbD_wordMask hi, h, decide_false, Bool.not_false, hi, decide_true,
      Bool.and_true] using hbit

/-- Settles O7: the field reads the value's low bits, which are its AND with the mask; the other bits are the word's. -/
theorem insertSetsExactlyTheField : Obligations.InsertSetsExactlyTheField := by
  intro f v w
  refine ⟨f.extract_insert v w, ?_, f.insert_and_not_wordMask v w⟩
  rw [extract_insert]
  exact lowBits_eq_land_mask f.width v

/-- Settles O8: in each equation the field reads the same from both sides, and outside it both sides are `w`. -/
theorem reinsertIsIdentityAndLastInsertWins : Obligations.ReinsertIsIdentityAndLastInsertWins := by
  intro f w u v
  constructor
  · apply f.eq_of_extract_eq
    · rw [extract_insert, lowBits_natCast (f.extract_lt w)]
    · exact f.insert_and_not_wordMask _ w
  · apply f.eq_of_extract_eq
    · rw [extract_insert, extract_insert]
    · simp only [insert_and_not_wordMask]

/-- Settles O9: the field reads the value's low bits, and a value in range is the signed or unsigned reading of these. -/
theorem insertedValueReadsBack : Obligations.InsertedValueReadsBack := by
  intro f w v
  constructor
  · rintro ⟨hlow, hhigh⟩
    rw [extractSigned, extract_insert, signedOf_lowBits v f.width_pos]
    exact BitVec.toInt_ofInt_eq_self f.width_pos hlow (Int.lt_of_le_sub_one hhigh)
  · rintro ⟨hlow, hhigh⟩
    rw [extract_insert, lowBits_cast]
    exact Int.emod_eq_of_lt hlow (Int.lt_of_le_sub_one hhigh)

/-- Settles O11: the value and the value plus `2^width` have the same low bits. -/
theorem negativeInsertStoresUnsignedPattern : Obligations.NegativeInsertStoresUnsignedPattern := fun f v w _ _ =>
  f.insert_congr (lowBits_add_two_pow f.width v).symm w

/-! ## Two fields (R111) -/

section
variable {f} {g : BitField} (h : f.wordMask &&& g.wordMask = 0)
include h

/-- No bit lies in two fields with disjoint masks. -/
theorem not_inside_of_disjoint {i : Nat} (hi : i < 32) (hf : f.lsb ≤ i ∧ i ≤ f.msb) : ¬(g.lsb ≤ i ∧ i ≤ g.msb) := by
  have hbit := congrArg (BitVec.getLsbD · i) h
  simpa [f.getLsbD_wordMask hi, g.getLsbD_wordMask hi, hf] using hbit

theorem extract_insert_of_disjoint (u : Int) (w : Word) : g.extract (f.insert u w) = g.extract w := by
  have hw := g.lsb_add_width
  have hm := g.inWord
  apply Nat.eq_of_testBit_eq
  intro i
  rw [extract_testBit, extract_testBit]
  by_cases hi : i < g.width
  · have hout : ¬(f.lsb ≤ g.lsb + i ∧ g.lsb + i ≤ f.msb) := fun hf => not_inside_of_disjoint h (by omega) hf (by omega)
    rw [f.getLsbD_insert u w (by omega), if_neg hout]
  · rw [decide_eq_false hi, Bool.false_and, Bool.false_and]

theorem insert_comm_of_disjoint (u v : Int) (w : Word) : f.insert u (g.insert v w) = g.insert v (f.insert u w) := by
  apply BitVec.eq_of_getLsbD_eq
  intro i hi
  rw [f.getLsbD_insert _ _ hi, g.getLsbD_insert _ _ hi, g.getLsbD_insert _ _ hi, f.getLsbD_insert _ _ hi]
  by_cases hf : f.lsb ≤ i ∧ i ≤ f.msb
  · have hg := not_inside_of_disjoint h hi hf
    rw [if_pos hf, if_neg hg, if_pos hf]
  · rw [if_neg hf, if_neg hf]

end

/-- Settles O10: a bit of the result lies in one of the two fields at most, and only that field's insert writes it. -/
theorem disjointFieldsCommute : Obligations.DisjointFieldsCommute := fun _ _ u v w h =>
  ⟨insert_comm_of_disjoint h u v w, extract_insert_of_disjoint h u w⟩

end BitField

/-! ## The unit's ports (R45, R104) -/

namespace Machine

section
variable (cfg : Config) (f : BitField) (w : Word) (p : BitVec cfg.inW)

theorem bf_u_toNat : (bitfieldUnit cfg f w p).bf_u.toNat = f.extract w := by
  change (BitVec.ofNat f.width (f.extract w)).toNat = _
  rw [BitVec.toNat_ofNat, Nat.mod_eq_of_lt (f.extract_lt w)]

theorem bf_s_toInt : (bitfieldUnit cfg f w p).bf_s.toInt = f.extractSigned w := by
  change (BitVec.ofInt f.width (f.extractSigned w)).toInt = _
  rw [f.extractSigned_eq_slice w, BitVec.ofInt_toInt]

end

/-- Settles O12: `bf_value` carries the low `width` bits of its integer, insert takes no others, and the readings fit their ports. -/
theorem unitPortsCarryTheOperations : Obligations.UnitPortsCarryTheOperations := fun cfg f v w hw =>
  ⟨f.insert_toInt_ofInt hw v w, bf_u_toNat cfg f w _, bf_s_toInt cfg f w _,
    f.insert_congr (lowBits_lowBits f.width v).symm w⟩

end Machine

end Sys2Proof
end

section
/-!
The codec of 41_codec.md: what decode answers in each case (R119, R120, R122), encode's packed word (R124, R126), the round trips
(R129 to R132) and the independence of the fields (R133).
-/

namespace Sys2Proof

/-! ## What decode answers, an equation per case (R119, R120) -/

section
variable {cfg : Config} {w : Word} {op : Opcode}

theorem Opcode.exists_ofOrd_of_mem {n : Nat} (h : n ∈ [0, 1, 2, 3, 5, 6, 7]) : ∃ o, Opcode.ofOrd n = some o :=
  Option.isSome_iff_exists.1 ((by decide : ∀ n ∈ [0, 1, 2, 3, 5, 6, 7], (Opcode.ofOrd n).isSome = true) n h)

theorem Opcode.ord_mem_nat (o : Opcode) : o.ord ∈ [0, 1, 2, 3, 5, 6, 7] := by cases o <;> decide

theorem Opcode.ofOrd_eq_none_of_not_mem {n : Nat} (h : n ∉ [0, 1, 2, 3, 5, 6, 7]) : Opcode.ofOrd n = none :=
  Option.eq_none_iff_forall_ne_some.2 fun o ho => h (Opcode.ofOrd_eq_some_iff.1 ho ▸ o.ord_mem_nat)

/-- An opcode field that the map lacks is rejected whatever the condition. -/
theorem decode_of_ofOrd_eq_none (h : Opcode.ofOrd (fieldOpcode.extract w) = none) :
    decode cfg w = .error (.decode .opcode (fieldOpcode.extract w)) := by
  simp only [decode, h]

theorem decode_of_condOk_eq_false (hop : Opcode.ofOrd (fieldOpcode.extract w) = some op)
    (hc : cfg.condOk (fieldCond.index w) = false) :
    decode cfg w = .error (.decode .condition (fieldCond.extract w)) := by
  simp [decode, hop, hc]

theorem decode_of_condOk_eq_true (hop : Opcode.ofOrd (fieldOpcode.extract w) = some op)
    (hc : cfg.condOk (fieldCond.index w) = true) :
    decode cfg w = .ok (Instr.ofFields op (fieldCond.index w) (fieldRt.index w) (fieldRs1.index w) (fieldRs2.index w)
      (fieldOffset.extractSigned w)) := by
  simp [decode, hop, hc]

end

/-- A word decodes or is rejected with a DecodeError: decode has no third outcome. -/
theorem decode_ok_or_decodeError (cfg : Config) (w : Word) :
    (∃ i, decode cfg w = .ok i) ∨ ∃ fld raw, decode cfg w = .error (.decode fld raw) := by
  cases hop : Opcode.ofOrd (fieldOpcode.extract w) with
  | none => exact .inr ⟨_, _, decode_of_ofOrd_eq_none hop⟩
  | some op =>
    cases hc : cfg.condOk (fieldCond.index w) with
    | false => exact .inr ⟨_, _, decode_of_condOk_eq_false hop hc⟩
    | true => exact .inl ⟨_, decode_of_condOk_eq_true hop hc⟩

theorem wellFormed_of_decode_eq_ok {cfg : Config} {w : Word} {i : Instr} (h : decode cfg w = .ok i) : i.wellFormed cfg := by
  obtain ⟨hlow, hhigh⟩ := Machine.fitsSigned_toInt (w.extractLsb' 0 10)
  rw [← off_of_decode_eq_ok h] at hlow hhigh
  exact ⟨(decode_eq_ok_iff.1 h).1, hlow, hhigh⟩

/-! ## What the fields of an encoded word read (R124) -/

/-- Each field of the encoded word reads the low bits of its own input, since the other inserts do not reach it. -/
theorem extract_encodeRaw (op cond rt rs1 rs2 off : Int) :
    fieldOpcode.extract (encodeRaw op cond rt rs1 rs2 off) = lowBits 5 op ∧
      fieldCond.extract (encodeRaw op cond rt rs1 rs2 off) = lowBits 4 cond ∧
      fieldRt.extract (encodeRaw op cond rt rs1 rs2 off) = lowBits 4 rt ∧
      fieldRs1.extract (encodeRaw op cond rt rs1 rs2 off) = lowBits 4 rs1 ∧
      fieldRs2.extract (encodeRaw op cond rt rs1 rs2 off) = lowBits 4 rs2 ∧
      fieldOffset.extract (encodeRaw op cond rt rs1 rs2 off) = lowBits 10 off := by
  simp (disch := decide) only [encodeRaw, BitField.extract_insert_of_disjoint, BitField.extract_insert]
  exact ⟨rfl, rfl, rfl, rfl, rfl, rfl⟩

theorem Opcode.ord_lt (o : Opcode) : o.ord < 2 ^ 5 := by cases o <;> decide

/-- The ordinal, the condition and the registers fit their fields, so encode truncates the offset alone. -/
theorem extract_encode (i : Instr) :
    fieldOpcode.extract (encode i) = i.op.ord ∧ fieldCond.extract (encode i) = i.cond.val ∧
      fieldRt.extract (encode i) = i.rt.val ∧ fieldRs1.extract (encode i) = i.rs1.val ∧
      fieldRs2.extract (encode i) = i.rs2.val ∧ fieldOffset.extract (encode i) = lowBits 10 i.off := by
  have hreg (j : Fin 16) : lowBits 4 (j.val : Int) = j.val := lowBits_natCast j.isLt
  have h := extract_encodeRaw i.op.ord i.cond.val i.rt.val i.rs1.val i.rs2.val i.off
  rwa [lowBits_natCast i.op.ord_lt, hreg, hreg, hreg, hreg] at h

/-! ## The round trips (R129 to R132) -/

theorem BitField.index_eq_of_extract_eq {f : BitField} {w : Word} {j : Fin 16} (h : f.extract w = j.val) : f.index w = j := by
  rw [index, h, Fin.ofNat_val_eq_self]

/-- An offset in range is the signed reading of its low ten bits. -/
theorem extractSigned_offset_encode {i : Instr} (h : i.inRange) : fieldOffset.extractSigned (encode i) = i.off := by
  obtain ⟨-, -, -, -, -, hoff⟩ := extract_encode i
  rw [BitField.extractSigned, hoff]
  change signedOf 10 (lowBits 10 i.off) = i.off
  rw [signedOf_lowBits i.off (by decide)]
  exact BitVec.toInt_ofInt_eq_self (by decide) h.1 (Int.lt_of_le_sub_one h.2)

/-- Settles O23: the encoded word's fields read the instruction's own, the offset as a signed value because it is in range. -/
theorem decodeOfEncodeIsTheInstruction : Obligations.DecodeOfEncodeIsTheInstruction := by
  rintro cfg i ⟨hcondOk, hrange⟩
  obtain ⟨hop, hcond, hrt, hrs1, hrs2, -⟩ := extract_encode i
  exact decode_eq_ok_iff.2 ⟨hcondOk, hop, BitField.index_eq_of_extract_eq hcond, BitField.index_eq_of_extract_eq hrt,
    BitField.index_eq_of_extract_eq hrs1, BitField.index_eq_of_extract_eq hrs2, extractSigned_offset_encode hrange⟩

theorem and_lowMask_eq_self {w : Word} (h : w.getLsbD 31 = false) : w &&& 0x7FFFFFFF = w := by
  apply BitVec.eq_of_getLsbD_eq
  intro i hi
  rw [getLsbD_and_lowMask]
  rcases Nat.lt_succ_iff_lt_or_eq.1 hi with hlt | rfl
  · rw [decide_eq_true hlt, Bool.true_and]
  · rw [h, Bool.and_false]

theorem encode_of_decode_eq_ok {cfg : Config} {w : Word} {i : Instr} (h : decode cfg w = .ok i) :
    encode i = w &&& 0x7FFFFFFF := by
  have hself : decode cfg (encode i) = .ok i := decodeOfEncodeIsTheInstruction cfg i (wellFormed_of_decode_eq_ok h)
  have hbit : (encode i).getLsbD 31 = false := getLsbD_31_encodeRaw _ _ _ _ _ _
  rw [← and_lowMask_eq_self hbit]
  exact (and_lowMask_eq_iff _ _).2 (extract_eq_of_decode_eq_ok hself h)

/-- Settles O24: the encoded word decodes to the same instruction, so it agrees with the word on bits 0 to 30, and its bit 31 is 0. -/
theorem encodeOfDecodeIsTheWord : Obligations.EncodeOfDecodeIsTheWord := by
  intro cfg w i h
  refine ⟨encode_of_decode_eq_ok h, fun hbit => ?_, wellFormed_of_decode_eq_ok h⟩
  rw [encode_of_decode_eq_ok h, and_lowMask_eq_self hbit]

/-- What the word of any six integers decodes to holds their low bits. -/
theorem fields_of_decode_encodeRaw {cfg : Config} {op cond rt rs1 rs2 off : Int} {i : Instr}
    (h : decode cfg (encodeRaw op cond rt rs1 rs2 off) = .ok i) :
    i.op.ord = lowBits 5 op ∧ i.cond.val = lowBits 4 cond ∧ i.rt.val = lowBits 4 rt ∧ i.rs1.val = lowBits 4 rs1 ∧
      i.rs2.val = lowBits 4 rs2 ∧ lowBits 10 i.off = lowBits 10 off := by
  obtain ⟨hop, hcond, hrt, hrs1, hrs2, hoff⟩ := extract_of_decode_eq_ok h
  obtain ⟨eop, econd, ert, ers1, ers2, eoff⟩ := extract_encodeRaw op cond rt rs1 rs2 off
  exact ⟨hop.symm.trans eop, hcond.symm.trans econd, hrt.symm.trans ert, hrs1.symm.trans ers1, hrs2.symm.trans ers2,
    hoff.symm.trans eoff⟩

/-- Settles O25: the fields hold the inputs' low bits, and equal low ten bits are congruence modulo 1024. -/
theorem truncatedRoundTrip : Obligations.TruncatedRoundTrip := by
  intro cfg op cond rt rs1 rs2 off i h
  obtain ⟨hop, hcond, hrt, hrs1, hrs2, hoff⟩ := fields_of_decode_encodeRaw h
  obtain ⟨-, hlow, hhigh⟩ := wellFormed_of_decode_eq_ok h
  have hmod : i.off % (2 : Int) ^ 10 = off % (2 : Int) ^ 10 := by rw [← lowBits_cast, hoff, lowBits_cast]
  exact ⟨hop, hcond, hrt, hrs1, hrs2, hlow, hhigh, hmod⟩

/-- Settles O26: a word that decodes has an ordinal and a recognised condition in its fields, and these hold the inputs' low bits. -/
theorem decodeRejectsBadEncoderInputs : Obligations.DecodeRejectsBadEncoderInputs := by
  intro cfg op cond rt rs1 rs2 off hbad
  rcases decode_ok_or_decodeError cfg (encodeRaw op cond rt rs1 rs2 off) with ⟨i, hi⟩ | herr
  · obtain ⟨hop, hcond, -⟩ := fields_of_decode_encodeRaw hi
    have hcondOk := (wellFormed_of_decode_eq_ok hi).1
    have hord : i.op.ord ≠ 4 ∧ i.op.ord < 8 := by cases i.op <;> decide
    rw [← hop, ← hcond, Fin.ofNat_val_eq_self, hcondOk] at hbad
    rcases hbad with h4 | h8 | hc
    · exact absurd h4 hord.1
    · exact absurd hord.2 (Nat.not_lt.2 h8)
    · cases hc
  · exact herr

/-! ## The slices and the ports (R46, R119, R120, R122) -/

/-- A 4-bit field's index is its slice. -/
theorem BitField.index_eq_slice {f : BitField} (h : f.width = 4) (w : Word) :
    f.index w = (w.extractLsb' f.lsb 4).toFin :=
  index_eq_of_extract_eq (by rw [extract_eq_slice, h]; rfl)

/-- A decoded instruction's fields are the word's slices. -/
theorem slices_of_decode_eq_ok {cfg : Config} {w : Word} {i : Instr} (h : decode cfg w = .ok i) :
    i.op.ord = (w.extractLsb' 26 5).toNat ∧ i.cond = (w.extractLsb' 22 4).toFin ∧ i.rt = (w.extractLsb' 18 4).toFin ∧
      i.rs1 = (w.extractLsb' 14 4).toFin ∧ i.rs2 = (w.extractLsb' 10 4).toFin ∧ i.off = (w.extractLsb' 0 10).toInt := by
  obtain ⟨-, hop, hcond, hrt, hrs1, hrs2, -⟩ := decode_eq_ok_iff.1 h
  exact ⟨hop.symm.trans (fieldOpcode.extract_eq_slice w), hcond.symm.trans (BitField.index_eq_slice rfl w),
    hrt.symm.trans (BitField.index_eq_slice rfl w), hrs1.symm.trans (BitField.index_eq_slice rfl w),
    hrs2.symm.trans (BitField.index_eq_slice rfl w), off_of_decode_eq_ok h⟩

namespace Machine

theorem decoderPorts_of_decode_error {cfg : Config} {w : Word} {e : Err} (h : decode cfg w = .error e) :
    decoderPorts cfg w = { data := none, dec_err := errCode e, dec_err_field := errFieldBit e } := by
  simp only [decoderPorts, h]

/-- The ports of a word that decodes show the instruction's fields and the offset's slice, sign-extended. -/
theorem decoderPorts_of_decode_ok {cfg : Config} {w : Word} {i : Instr} (h : decode cfg w = .ok i) :
    decoderPorts cfg w =
      { data := some
          { dec_op := BitVec.ofNat 5 i.op.ord, dec_cond := BitVec.ofFin i.cond, dec_rt := BitVec.ofFin i.rt
            dec_rs1 := BitVec.ofFin i.rs1, dec_rs2 := BitVec.ofFin i.rs2
            dec_off := (w.extractLsb' 0 10).signExtend cfg.xlen }
        dec_err := 0
        dec_err_field := none } := by
  obtain ⟨hop, hcond, hrt, hrs1, hrs2, -⟩ := slices_of_decode_eq_ok h
  rw [hop, hcond, hrt, hrs1, hrs2, BitVec.ofNat_toNat, BitVec.setWidth_eq]
  simp only [decoderPorts, h]

end Machine

/-- Settles O15: decode has an equation for each of the three cases, the fields are slices, and the ports follow the outcome. -/
theorem decodeReadsEveryField : Obligations.DecodeReadsEveryField := by
  intro cfg w
  have hop : (w.extractLsb' 26 5).toNat = fieldOpcode.extract w := (fieldOpcode.extract_eq_slice w).symm
  have hcond : (w.extractLsb' 22 4).toFin = fieldCond.index w := (BitField.index_eq_slice (f := fieldCond) rfl w).symm
  rw [hop]
  refine ⟨fun hbad => ?badOpcode, fun hmem hc => ?badCond, fun hmem hc => ?decodes⟩
  case badOpcode =>
    have hd := decode_of_ofOrd_eq_none (cfg := cfg) (Opcode.ofOrd_eq_none_of_not_mem hbad)
    rw [Machine.decoderPorts_of_decode_error hd]
    exact ⟨hd, rfl, rfl⟩
  case badCond =>
    obtain ⟨o, ho⟩ := Opcode.exists_ofOrd_of_mem hmem
    have hd := decode_of_condOk_eq_false ho (hcond ▸ hc)
    rw [Machine.decoderPorts_of_decode_error hd, hd, fieldCond.extract_eq_slice]
    exact ⟨rfl, rfl, rfl⟩
  case decodes =>
    obtain ⟨o, ho⟩ := Opcode.exists_ofOrd_of_mem hmem
    have hd := decode_of_condOk_eq_true ho (hcond ▸ hc)
    obtain ⟨sop, scond, srt, srs1, srs2, soff⟩ := slices_of_decode_eq_ok hd
    rw [Machine.decoderPorts_of_decode_ok hd]
    exact ⟨_, hd, sop.trans hop, scond, srt, srs1, srs2, soff, rfl, rfl⟩

/-! ## The packed word (R124) and the order of the inserts (R126) -/

/-- Into a field that reads zero, insert is an OR. -/
theorem BitField.insert_eq_or {f : BitField} {w : Word} (h : f.extract w = 0) (v : Int) :
    f.insert v w = w ||| (BitVec.ofNat 32 (lowBits f.width v) <<< f.lsb) := by
  have hclear : w &&& ~~~f.wordMask = w := by
    apply BitVec.eq_of_getLsbD_eq
    intro i hi
    rw [BitVec.getLsbD_and, BitVec.getLsbD_not, f.getLsbD_wordMask hi]
    by_cases hin : f.lsb ≤ i ∧ i ≤ f.msb
    · rw [f.getLsbD_eq_extract_testBit w hin.1 hin.2, h, Nat.zero_testBit, Bool.false_and]
    · simp [hin, hi]
  rw [insert, hclear]

theorem BitField.extract_zero (f : BitField) : f.extract 0 = 0 := by simp [extract]

/-- Settles O19: each insert meets a field that still reads zero, so it is an OR. -/
theorem encodePacksLowBits : Obligations.EncodePacksLowBits := by
  refine ⟨fun _ => rfl, fun op cond rt rs1 rs2 off => ?_⟩
  unfold encodeRaw
  rw [BitField.insert_eq_or (f := fieldOffset), BitField.insert_eq_or (f := fieldRs2), BitField.insert_eq_or (f := fieldRs1),
    BitField.insert_eq_or (f := fieldRt), BitField.insert_eq_or (f := fieldCond), BitField.insert_eq_or (f := fieldOpcode)]
  · simp [fieldOffset, fieldRs2, fieldRs1, fieldRt, fieldCond, fieldOpcode, BitField.width]
  all_goals simp (disch := decide) only [BitField.extract_insert_of_disjoint, BitField.extract_zero]

/-- Two different fields of the table have disjoint masks (R67). -/
theorem wordMask_disjoint_of_ne : ∀ f ∈ codecFields, ∀ g ∈ codecFields, f ≠ g → f.wordMask &&& g.wordMask = 0 := by decide

/-- One insert for each field of the table, in any order, gives one word. -/
theorem foldl_insert_eq_of_perm {l l' : List (BitField × Int)} (hp : l.Perm l') (hl : l.map Prod.fst = codecFields) (w : Word) :
    l'.foldl (fun w p => p.1.insert p.2 w) w = l.foldl (fun w p => p.1.insert p.2 w) w := by
  have hmem {p : BitField × Int} (h : p ∈ l) : p.1 ∈ codecFields := hl ▸ List.mem_map_of_mem h
  have hinj := List.inj_on_of_nodup_map (f := Prod.fst) (l := l) (hl ▸ (by decide : codecFields.Nodup))
  refine (hp.foldl_eq' (fun a ha b hb w => ?_) w).symm
  by_cases hab : a.1 = b.1
  · rw [hinj ha hb hab]
  · exact (BitField.insert_comm_of_disjoint (wordMask_disjoint_of_ne _ (hmem ha) _ (hmem hb) hab) a.2 b.2 w).symm

/-- Settles O20: encode makes the six inserts in the order of the table. -/
theorem encodeInsertsInAnyOrder : Obligations.EncodeInsertsInAnyOrder := fun _ _ _ _ _ _ _ hp =>
  foldl_insert_eq_of_perm hp.symm rfl 0

/-! ## The independence of the fields (R133) -/

namespace BitField

section
variable {f g : BitField}

/-- Outside one field's mask, an insert into another goes on as it would have on the bits that are left. -/
theorem insert_and_not_wordMask_of_disjoint (h : f.wordMask &&& g.wordMask = 0) (v : Int) (w : Word) :
    f.insert v w &&& ~~~g.wordMask = f.insert v (w &&& ~~~g.wordMask) := by
  apply BitVec.eq_of_getLsbD_eq
  intro i hi
  rw [BitVec.getLsbD_and, f.getLsbD_insert _ _ hi, f.getLsbD_insert _ _ hi, BitVec.getLsbD_not, g.getLsbD_wordMask hi]
  by_cases hf : f.lsb ≤ i ∧ i ≤ f.msb
  · simp [hf, hi, not_inside_of_disjoint h hi hf]
  · rw [if_neg hf, if_neg hf, BitVec.getLsbD_and, BitVec.getLsbD_not, g.getLsbD_wordMask hi]

/-- Two words that differ inside one field only: the second is an insert into the first. -/
theorem exists_insert_of_and_not_wordMask_eq {w w' : Word} (h : w &&& ~~~f.wordMask = w' &&& ~~~f.wordMask) :
    ∃ v, w' = f.insert v w :=
  ⟨f.extract w', f.eq_of_extract_eq (by rw [extract_insert, lowBits_natCast (f.extract_lt w')])
    (by rw [insert_and_not_wordMask, h])⟩

theorem index_insert_of_disjoint (h : f.wordMask &&& g.wordMask = 0) (v : Int) (w : Word) :
    g.index (f.insert v w) = g.index w := by
  rw [index, index, extract_insert_of_disjoint h]

theorem extractSigned_insert_of_disjoint (h : f.wordMask &&& g.wordMask = 0) (v : Int) (w : Word) :
    g.extractSigned (f.insert v w) = g.extractSigned w := by
  rw [extractSigned, extractSigned, extract_insert_of_disjoint h]

end

end BitField

/-! One insert into a decoded word, field by field. -/

section
variable {cfg : Config} {w : Word} {i : Instr} (h : decode cfg w = .ok i) (v : Int)
include h

/-- The opcode is read first, so only the new opcode decides whether the word is rejected. -/
theorem decode_insert_opcode :
    (∃ op, decode cfg (fieldOpcode.insert v w) = .ok (Instr.ofFields op i.cond i.rt i.rs1 i.rs2 i.off)) ∨
      ∃ raw, decode cfg (fieldOpcode.insert v w) = .error (.decode .opcode raw) := by
  obtain ⟨hc, -, hfields⟩ := decode_eq_ok_iff.1 h
  cases ho : Opcode.ofOrd (fieldOpcode.extract (fieldOpcode.insert v w)) with
  | none => exact .inr ⟨_, decode_of_ofOrd_eq_none ho⟩
  | some op =>
    have hop := Opcode.ofOrd_eq_some_iff.1 ho
    refine .inl ⟨op, decode_eq_ok_iff.2 ?_⟩
    simp (disch := decide) [BitField.index_insert_of_disjoint, BitField.extractSigned_insert_of_disjoint, hc, hop, hfields]

/-- The old opcode is legal, so only the new condition decides whether the word is rejected. -/
theorem decode_insert_cond :
    (∃ c, decode cfg (fieldCond.insert v w) = .ok (Instr.ofFields i.op c i.rt i.rs1 i.rs2 i.off)) ∨
      ∃ raw, decode cfg (fieldCond.insert v w) = .error (.decode .condition raw) := by
  obtain ⟨-, hop, -, hfields⟩ := decode_eq_ok_iff.1 h
  have ho : fieldOpcode.extract (fieldCond.insert v w) = i.op.ord := by
    rw [BitField.extract_insert_of_disjoint (by decide), hop]
  cases hc : cfg.condOk (fieldCond.index (fieldCond.insert v w)) with
  | false => exact .inr ⟨_, decode_of_condOk_eq_false (Opcode.ofOrd_eq_some_iff.2 ho) hc⟩
  | true =>
    refine .inl ⟨_, decode_eq_ok_iff.2 ⟨by rwa [Instr.cond_ofFields], by rwa [Instr.op_ofFields], ?_⟩⟩
    simp (disch := decide) [BitField.index_insert_of_disjoint, BitField.extractSigned_insert_of_disjoint, hfields]

/-- A field beside the opcode and the condition: the word still decodes, and what the other fields read is the instruction's. -/
theorem decode_insert_of_disjoint {f : BitField} (hfo : f.wordMask &&& fieldOpcode.wordMask = 0)
    (hfc : f.wordMask &&& fieldCond.wordMask = 0) :
    decode cfg (f.insert v w) = .ok (Instr.ofFields i.op i.cond (fieldRt.index (f.insert v w))
      (fieldRs1.index (f.insert v w)) (fieldRs2.index (f.insert v w)) (fieldOffset.extractSigned (f.insert v w))) := by
  obtain ⟨hc, hop, hcond, -⟩ := decode_eq_ok_iff.1 h
  rw [← BitField.extract_insert_of_disjoint hfo v, ← Opcode.ofOrd_eq_some_iff] at hop
  rw [← BitField.index_insert_of_disjoint hfc v] at hcond
  rw [← hcond] at hc ⊢
  exact decode_of_condOk_eq_true hop hc

end

/-- Settles O27: outside a field's mask nothing of that field's insert is left; and a word that differs from a decoded one inside a
field is an insert into it, which the other fields do not see. -/
theorem fieldsAreIndependent : Obligations.FieldsAreIndependent := by
  constructor
  · intro op cond rt rs1 rs2 off v
    simp (disch := decide) only [encodeRaw, BitField.insert_and_not_wordMask_of_disjoint, BitField.insert_and_not_wordMask,
      and_self]
  · intro cfg w w' i h
    obtain ⟨-, -, -, hrt, hrs1, hrs2, hoff⟩ := decode_eq_ok_iff.1 h
    refine ⟨fun hw => ?op, fun hw => ?cond, fun hw => ?rt, fun hw => ?rs1, fun hw => ?rs2, fun hw => ?off⟩ <;>
      obtain ⟨v, rfl⟩ := BitField.exists_insert_of_and_not_wordMask_eq hw
    case op => exact decode_insert_opcode h v
    case cond => exact decode_insert_cond h v
    all_goals
      rw [decode_insert_of_disjoint h v (by decide) (by decide)]
      simp (disch := decide) only [BitField.index_insert_of_disjoint, BitField.extractSigned_insert_of_disjoint, hrt, hrs1,
        hrs2, hoff]
      exact ⟨_, rfl⟩

end Sys2Proof
end

section
/-!
The ALU of 42_alu_dispatch.md: what exec answers for each opcode (R141 to R155), the delivered result and its condition (R143 to
R146, R157, R160), and the four arithmetic instructions as the driver runs them on written sources (R183 to R187).
-/

/-! ## Match words (R77) -/

namespace Sys2Proof

/-- Under the word mask of a field a word equals one with nothing outside the field exactly when the field reads the same of both. -/
theorem BitField.and_wordMask_eq_iff (f : BitField) {w m : Word} (hm : m &&& ~~~f.wordMask = 0) :
    w &&& f.wordMask = m ↔ f.extract w = f.extract m := by
  constructor
  · rintro rfl
    exact (f.extract_and_wordMask w).symm
  · intro h
    refine f.eq_of_extract_eq ((f.extract_and_wordMask w).trans h) ?_
    rw [hm, BitVec.and_assoc, BitVec.and_not_self]
    exact BitVec.and_zero

theorem Opcode.ord_injective : Function.Injective Opcode.ord := by
  intro o o' h
  rw [← Option.some.injEq, ← Opcode.ofOrd_eq_some_iff.2 rfl, h]
  exact Opcode.ofOrd_eq_some_iff.2 rfl

namespace Machine

/-- A match word that holds the ordinal in the opcode field and nothing elsewhere picks out the opcode. -/
theorem encodedAs_of_extract {op : Opcode} {m : Word} (hop : fieldOpcode.extract m = op.ord)
    (hm : m &&& ~~~fieldOpcode.wordMask = 0) : EncodedAs op m := by
  intro cfg w i h
  have hmask : (0x7C000000 : Word) = fieldOpcode.wordMask := by decide
  rw [hmask, fieldOpcode.and_wordMask_eq_iff hm, (extract_of_decode_eq_ok h).1, hop, Opcode.ord_injective.eq_iff]

/-! ## The sign of a result (R145, R146) -/

theorem cls_eq_neg_iff {r : Int} : cls r = .neg ↔ r < 0 := by
  unfold cls
  split_ifs <;> simp <;> omega

theorem cls_eq_zero_iff {r : Int} : cls r = .zero ↔ r = 0 := by
  unfold cls
  split_ifs <;> simp <;> omega

theorem cls_eq_pos_iff {r : Int} : cls r = .pos ↔ r > 0 := by
  unfold cls
  split_ifs <;> simp <;> omega

theorem encCc_cls (r : Int) : encCc (cls r) = if r < 0 then 0b001 else if r = 0 then 0b010 else 0b100 := by
  unfold cls
  split_ifs <;> rfl

/-! ## The dispatch table (R141, R155) -/

/-- The four entries of the table, and no other. -/
theorem dispatchTable_cases (op : BitVec 5) :
    (op.toNat ∉ [3, 5, 6, 7] ∧ dispatchTable op = none) ∨ (op = 3 ∧ dispatchTable op = some aluAdd) ∨
      (op = 5 ∧ dispatchTable op = some aluSub) ∨ (op = 6 ∧ dispatchTable op = some aluMul) ∨
      (op = 7 ∧ dispatchTable op = some aluDiv) := by
  unfold dispatchTable
  split
  next h => exact .inr (.inl ⟨BitVec.eq_of_toNat_eq h, rfl⟩)
  next h => exact .inr (.inr (.inl ⟨BitVec.eq_of_toNat_eq h, rfl⟩))
  next h => exact .inr (.inr (.inr (.inl ⟨BitVec.eq_of_toNat_eq h, rfl⟩)))
  next h => exact .inr (.inr (.inr (.inr ⟨BitVec.eq_of_toNat_eq h, rfl⟩)))
  next h3 h5 h6 h7 => exact .inl ⟨by simpa using ⟨h3, h5, h6, h7⟩, rfl⟩

theorem aluDiv_zero (a : Int) : aluDiv a 0 = .error .divisionByZero := rfl

theorem aluDiv_of_ne_zero (a : Int) {b : Int} (h : b ≠ 0) : aluDiv a b = .ok (a.tdiv b) := by
  rw [aluDiv, if_neg h, tdiv_eq_int_tdiv]

/-- The only error of a table entry is that of DIV (R142, R151). -/
theorem dispatchTable_error {op : BitVec 5} {f : Int → Int → Except Err Int} {x y : Int} {e : Err}
    (ht : dispatchTable op = some f) (he : f x y = .error e) : e = .divisionByZero := by
  rcases dispatchTable_cases op with ⟨-, h⟩ | ⟨-, h⟩ | ⟨-, h⟩ | ⟨-, h⟩ | ⟨-, h⟩ <;> rw [h] at ht <;> cases ht
  · cases he
  · cases he
  · cases he
  · by_cases hy : y = 0
    · rw [hy, aluDiv_zero] at he
      exact (Except.error.inj he).symm
    · rw [aluDiv_of_ne_zero x hy] at he
      cases he

/-! ## exec (R142 to R144) -/

section
variable {xlen : Nat} {pol : OvfPolicy} {op : BitVec 5} {a b : BitVec xlen} {f : Int → Int → Except Err Int} {r : Int}

theorem aluExec_of_fits (ht : dispatchTable op = some f) (hr : f a.toInt b.toInt = .ok r) (hf : FitsSigned xlen r) :
    aluExec pol op a b = .ok ⟨BitVec.ofInt xlen r, cls r⟩ :=
  aluExec_delivered ht hr (deliver_of_fits pol hf)

theorem aluExec_of_not_fits (hp : pol = .fault) (ht : dispatchTable op = some f) (hr : f a.toInt b.toInt = .ok r)
    (hf : ¬FitsSigned xlen r) : aluExec pol op a b = .error (.overflow op) :=
  aluExec_overflow ht hr (hp ▸ deliver_fault hf)

theorem aluExec_wrapped (hn : 0 < xlen) (hp : pol = .wrap) (ht : dispatchTable op = some f)
    (hr : f a.toInt b.toInt = .ok r) : aluExec pol op a b = .ok ⟨BitVec.ofInt xlen r, cls (BitVec.ofInt xlen r).toInt⟩ := by
  rw [aluExec_delivered ht hr (hp ▸ deliver_wrap r hn), BitVec.ofInt_toInt]

theorem aluExec_div_zero (hb : b.toInt = 0) : aluExec pol 7 a b = .error .divisionByZero :=
  aluExec_of_error (f := aluDiv) rfl (by rw [hb, aluDiv_zero])

/-- A delivered result is a table entry's exact integer in XLEN bits, with its own sign, and under FAULT the integer fits. -/
theorem aluExec_ok_inv {out : AluOut xlen} (hn : 0 < xlen) (h : aluExec pol op a b = .ok out) :
    ∃ f r, dispatchTable op = some f ∧ f a.toInt b.toInt = .ok r ∧
      out = ⟨BitVec.ofInt xlen r, cls (BitVec.ofInt xlen r).toInt⟩ ∧ (pol = .fault → FitsSigned xlen r) := by
  cases ht : dispatchTable op with
  | none => rw [aluExec_unsupported a b ht] at h; cases h
  | some f =>
    cases hr : f a.toInt b.toInt with
    | error e => rw [aluExec_of_error ht hr] at h; cases h
    | ok r =>
      rcases deliver_cases pol r hn with ⟨hd, -, -⟩ | ⟨hd, hfit⟩
      · rw [aluExec_overflow ht hr hd] at h; cases h
      · rw [aluExec_delivered ht hr hd, BitVec.ofInt_toInt] at h
        exact ⟨f, r, rfl, hr, (Except.ok.inj h).symm, hfit⟩

/-- The three sources of an error of exec, in the order of R142. -/
theorem aluExec_error_inv {e : Err} (h : aluExec pol op a b = .error e) :
    (dispatchTable op = none ∧ e = .unsupported op) ∨
      ∃ f, dispatchTable op = some f ∧ (f a.toInt b.toInt = .error e ∨
        ∃ r, f a.toInt b.toInt = .ok r ∧ deliver xlen pol r = none ∧ e = .overflow op) := by
  cases ht : dispatchTable op with
  | none =>
    rw [aluExec_unsupported a b ht] at h
    exact .inl ⟨rfl, (Except.error.inj h).symm⟩
  | some f =>
    refine .inr ⟨f, rfl, ?_⟩
    cases hr : f a.toInt b.toInt with
    | error e' =>
      rw [aluExec_of_error ht hr] at h
      exact .inl (congrArg Except.error (Except.error.inj h))
    | ok r =>
      cases hd : deliver xlen pol r with
      | none =>
        rw [aluExec_overflow ht hr hd] at h
        exact .inr ⟨r, rfl, hd, (Except.error.inj h).symm⟩
      | some r' => rw [aluExec_delivered ht hr hd] at h; cases h

end

/-! ## The ports (R48) -/

section
variable {cfg : Config} {op : BitVec 5} {a b : BitVec cfg.xlen}

theorem aluPorts_of_ok {out : AluOut cfg.xlen} (h : aluExec cfg.ovfPolicy op a b = .ok out) :
    aluPorts cfg op a b = ⟨some (out.result, encCc out.cond), 0⟩ := by
  simp only [aluPorts, h]

theorem aluPorts_of_error {e : Err} (h : aluExec cfg.ovfPolicy op a b = .error e) :
    aluPorts cfg op a b = ⟨none, errCode e⟩ := by
  simp only [aluPorts, h]

/-- exec and its ports through a table entry that answers the exact integer `r`, whose XLEN-bit value is `w`: when `r` fits, and
when it does not under either policy. -/
theorem alu_outcomes {f : Int → Int → Except Err Int} {r : Int} {w : BitVec cfg.xlen} (hn : 0 < cfg.xlen)
    (ht : dispatchTable op = some f) (hr : f a.toInt b.toInt = .ok r) (hw : BitVec.ofInt cfg.xlen r = w) :
    (FitsSigned cfg.xlen r →
      aluExec cfg.ovfPolicy op a b = .ok ⟨BitVec.ofInt cfg.xlen r, cls r⟩ ∧
      aluPorts cfg op a b = ⟨some (BitVec.ofInt cfg.xlen r, encCc (cls r)), 0⟩) ∧
    (¬FitsSigned cfg.xlen r → cfg.ovfPolicy = .fault →
      aluExec cfg.ovfPolicy op a b = .error (.overflow op) ∧ aluPorts cfg op a b = ⟨none, 5⟩) ∧
    (¬FitsSigned cfg.xlen r → cfg.ovfPolicy = .wrap →
      aluExec cfg.ovfPolicy op a b = .ok ⟨w, cls w.toInt⟩ ∧ aluPorts cfg op a b = ⟨some (w, encCc (cls w.toInt)), 0⟩) := by
  subst hw
  refine ⟨fun hf => ?fits, fun hf hp => ?fault, fun _ hp => ?wrap⟩
  case fits => exact ⟨aluExec_of_fits ht hr hf, aluPorts_of_ok (aluExec_of_fits ht hr hf)⟩
  case fault => exact ⟨aluExec_of_not_fits hp ht hr hf, aluPorts_of_error (aluExec_of_not_fits hp ht hr hf)⟩
  case wrap => exact ⟨aluExec_wrapped hn hp ht hr, aluPorts_of_ok (aluExec_wrapped hn hp ht hr)⟩

end

/-! ## XLEN-bit results (R144) -/

section
variable {n : Nat} (a b : BitVec n)

theorem ofInt_toInt_add : BitVec.ofInt n (a.toInt + b.toInt) = a + b := by
  rw [BitVec.ofInt_add, BitVec.ofInt_toInt, BitVec.ofInt_toInt]

theorem ofInt_toInt_sub : BitVec.ofInt n (a.toInt - b.toInt) = a - b := by
  rw [Int.sub_eq_add_neg, BitVec.ofInt_add, BitVec.ofInt_neg, BitVec.ofInt_toInt, BitVec.ofInt_toInt, BitVec.sub_eq_add_neg]

theorem ofInt_toInt_mul : BitVec.ofInt n (a.toInt * b.toInt) = a * b := by
  rw [BitVec.ofInt_mul, BitVec.ofInt_toInt, BitVec.ofInt_toInt]

theorem ofInt_toInt_tdiv : BitVec.ofInt n (a.toInt.tdiv b.toInt) = a.sdiv b :=
  BitVec.eq_of_toInt_eq (by rw [BitVec.toInt_ofInt, BitVec.toInt_sdiv])

theorem toInt_ofInt_emod (r : Int) : (BitVec.ofInt n r).toInt % (2 : Int) ^ n = r % (2 : Int) ^ n := by
  rw [BitVec.toInt_ofInt, ← Nat.cast_ofNat (R := Int), ← Nat.cast_pow, Int.bmod_emod]

theorem toInt_eq_zero_iff : b.toInt = 0 ↔ b = 0 := by
  simp [← BitVec.toInt_inj]

section
variable (hn : 0 < n)
include hn

theorem toInt_eq_least_iff : a.toInt = -(2 : Int) ^ (n - 1) ↔ a = BitVec.intMin n := by
  rw [← BitVec.toInt_inj, BitVec.toInt_intMin_of_pos hn]

theorem toInt_eq_neg_one_iff : b.toInt = -1 ↔ b = -1#n := by
  rw [← BitVec.toInt_inj, BitVec.neg_one_eq_allOnes, BitVec.toInt_allOnes, if_pos hn]

variable {a b}

/-- The quotient fits but for the least value over -1. -/
theorem fitsSigned_tdiv (h : ¬(a.toInt = -(2 : Int) ^ (n - 1) ∧ b.toInt = -1)) : FitsSigned n (a.toInt.tdiv b.toInt) := by
  rw [toInt_eq_least_iff a hn, toInt_eq_neg_one_iff b hn, not_and_or] at h
  rw [← BitVec.toInt_sdiv_of_ne_or_ne a b h]
  exact fitsSigned_toInt _

variable (ha : a.toInt = -(2 : Int) ^ (n - 1)) (hb : b.toInt = -1)
include ha hb

omit hn in
/-- The least value over -1 is one above the greatest value. -/
theorem not_fitsSigned_tdiv : ¬FitsSigned n (a.toInt.tdiv b.toInt) := by
  rintro ⟨-, h⟩
  rw [ha, hb, Int.neg_tdiv, Int.tdiv_neg, Int.tdiv_one] at h
  omega

theorem sdiv_eq_least : a.sdiv b = a := by
  rw [(toInt_eq_least_iff a hn).1 ha, (toInt_eq_neg_one_iff b hn).1 hb]
  exact BitVec.intMin_sdiv_neg_one

end

end

/-! ## The four operations (R148 to R151, R155) -/

/-- Settles O28: the table's entry answers the exact sum, and the sum of the bit vectors is its low bits. -/
theorem aluAddResult : Obligations.AluAddResult := by
  refine ⟨encodedAs_of_extract (by decide) (by decide), fun cfg a b ⟨hx, _⟩ => ?_⟩
  exact alu_outcomes (by omega) rfl rfl (ofInt_toInt_add a b)

/-- Settles O29: the table's entry answers the exact difference, and the difference of the bit vectors is its low bits. -/
theorem aluSubResult : Obligations.AluSubResult := by
  refine ⟨encodedAs_of_extract (by decide) (by decide), fun cfg a b ⟨hx, _⟩ => ?_⟩
  exact alu_outcomes (by omega) rfl rfl (ofInt_toInt_sub a b)

/-- Settles O30: the table's entry answers the exact product, and the product of the bit vectors is its low bits. -/
theorem aluMulResult : Obligations.AluMulResult := by
  refine ⟨encodedAs_of_extract (by decide) (by decide), fun cfg a b ⟨hx, _⟩ => ?_⟩
  exact alu_outcomes (by omega) rfl rfl (ofInt_toInt_mul a b)

/-- Settles O31: the zero divisor is the entry's own error; the quotient fits but in the corner, where it is one above the greatest
value and wraps to the least. -/
theorem aluDivResult : Obligations.AluDivResult := by
  refine ⟨encodedAs_of_extract (by decide) (by decide), fun cfg a b ⟨hx, _⟩ => ⟨fun hb => ?zero, fun hb hc => ?exact, ?corner⟩⟩
  case zero => exact ⟨aluExec_div_zero hb, aluPorts_of_error (aluExec_div_zero hb)⟩
  case exact =>
    have hf := fitsSigned_tdiv (by omega) hc
    have h := aluExec_of_fits (pol := cfg.ovfPolicy) (op := 7) rfl (aluDiv_of_ne_zero a.toInt hb) hf
    exact ⟨h, aluPorts_of_ok h, toInt_ofInt_of_fits (by omega) hf⟩
  case corner =>
    intro ha hb
    have hleast : (2 : Int) ^ (cfg.xlen - 1) > 0 := by positivity
    have hneg : cls a.toInt = .neg := cls_eq_neg_iff.2 (by omega)
    have hw : BitVec.ofInt cfg.xlen (a.toInt.tdiv b.toInt) = a := by
      rw [ofInt_toInt_tdiv, sdiv_eq_least (by omega) ha hb]
    obtain ⟨-, hfault, hwrap⟩ :=
      alu_outcomes (op := 7) (by omega) rfl (aluDiv_of_ne_zero a.toInt (by omega : b.toInt ≠ 0)) hw
    rw [hneg] at hwrap
    exact ⟨hfault (not_fitsSigned_tdiv ha hb), hwrap (not_fitsSigned_tdiv ha hb)⟩

/-- Settles O32: an opcode outside the table is unsupported, and an entry of the table raises only a zero divisor or an overflow. -/
theorem aluSupportsExactlyFourOpcodes : Obligations.AluSupportsExactlyFourOpcodes := by
  intro xlen pol op a b
  constructor
  · intro hop
    rcases dispatchTable_cases op with ⟨-, ht⟩ | ⟨rfl, -⟩ | ⟨rfl, -⟩ | ⟨rfl, -⟩ | ⟨rfl, -⟩
    · exact aluExec_unsupported a b ht
    all_goals exact absurd (by decide) hop
  · intro hop o h
    rcases aluExec_error_inv h with ⟨ht, -⟩ | ⟨f, ht, he | ⟨r, -, -, he⟩⟩
    · rcases dispatchTable_cases op with ⟨hop', -⟩ | ⟨-, ht'⟩ | ⟨-, ht'⟩ | ⟨-, ht'⟩ | ⟨-, ht'⟩
      · exact hop' hop
      all_goals rw [ht] at ht'; cases ht'
    · cases dispatchTable_error ht he
    · cases he

/-! ## Delivered results (R143 to R146, R157, R160) -/

/-- Settles O33: what is delivered is the table entry's integer in XLEN bits, and that integer is the exact one. -/
theorem deliveredResultIsExactOrWrapped : Obligations.DeliveredResultIsExactOrWrapped := by
  intro xlen pol op a b out exact hx h hexact
  obtain ⟨f, r, ht, hr, rfl, hfit⟩ := aluExec_ok_inv (by omega) h
  have hre : r = exact := by
    rcases hexact with ⟨rfl, rfl⟩ | ⟨rfl, rfl⟩ | ⟨rfl, rfl⟩ | ⟨rfl, rfl⟩ <;> cases ht
    · exact (Except.ok.inj hr).symm
    · exact (Except.ok.inj hr).symm
    · exact (Except.ok.inj hr).symm
    · by_cases hb : b.toInt = 0
      · rw [hb, aluDiv_zero] at hr
        cases hr
      · rw [aluDiv_of_ne_zero _ hb] at hr
        exact (Except.ok.inj hr).symm
  subst hre
  exact ⟨fun hp => toInt_ofInt_of_fits (by omega) (hfit hp), toInt_ofInt_emod r⟩

/-- Settles O34: the condition exec answers is `cls` of the delivered result. -/
theorem conditionIsTheSignOfTheResult : Obligations.ConditionIsTheSignOfTheResult := by
  intro cfg op a b out ⟨hx, _⟩ h
  rw [aluPorts_of_ok h]
  obtain ⟨f, r, -, -, rfl, -⟩ := aluExec_ok_inv (by omega) h
  exact ⟨cls_eq_neg_iff, cls_eq_zero_iff, cls_eq_pos_iff, by rw [encCc_cls]⟩

theorem ediv_pos_iff_le {a b : Int} (hb : 0 < b) : 0 < a / b ↔ b ≤ a := by
  rw [← Int.add_one_le_iff, Int.le_ediv_iff_mul_le hb, Int.zero_add, Int.one_mul]

theorem cls_ediv {a b : Int} (ha : 0 ≤ a) (hb : 0 < b) : cls (a / b) = if a ≥ b then .pos else .zero := by
  split_ifs with h
  · exact cls_eq_pos_iff.2 ((ediv_pos_iff_le hb).2 h)
  · exact cls_eq_zero_iff.2 (Int.ediv_eq_zero_of_lt ha (by omega))

theorem cls_neg_ediv {a b : Int} (ha : 0 ≤ a) (hb : 0 < b) : cls (-(a / b)) = if a ≥ b then .neg else .zero := by
  split_ifs with h
  · exact cls_eq_neg_iff.2 (Int.neg_neg_of_pos ((ediv_pos_iff_le hb).2 h))
  · rw [cls_eq_zero_iff, Int.ediv_eq_zero_of_lt ha (by omega), Int.neg_zero]

/-- Settles O35: truncation is floor division of the magnitudes with the sign put back. -/
theorem quotientSigns : Obligations.QuotientSigns := by
  intro a b
  have hnonneg (x y : Int) (hx : 0 ≤ x) (hy : 0 < y) : 0 ≤ x / y := Int.ediv_nonneg hx hy.le
  rw [tdiv_eq_int_tdiv]
  refine ⟨fun ha hb => ?pp, fun ha hb => ?np, fun ha hb => ?pn, fun ha hb => ?nn, fun ha _ => ?zero, aluDiv_zero a⟩
  case pp =>
    rw [Int.tdiv_eq_ediv_of_nonneg ha.le]
    exact ⟨rfl, hnonneg a b ha.le hb, cls_ediv ha.le hb⟩
  case np =>
    have ha' : 0 ≤ -a := by omega
    have hq : a.tdiv b = -(-a / b) := by rw [← Int.tdiv_eq_ediv_of_nonneg ha', Int.neg_tdiv, Int.neg_neg]
    rw [hq]
    exact ⟨rfl, by have := hnonneg _ _ ha' hb; omega, cls_neg_ediv ha' hb⟩
  case pn =>
    have hb' : 0 < -b := by omega
    have hq : a.tdiv b = -(a / -b) := by rw [← Int.tdiv_eq_ediv_of_nonneg ha.le, Int.tdiv_neg, Int.neg_neg]
    rw [hq]
    exact ⟨rfl, by have := hnonneg _ _ ha.le hb'; omega, cls_neg_ediv ha.le hb'⟩
  case nn =>
    have ha' : 0 ≤ -a := by omega
    have hb' : 0 < -b := by omega
    have hq : a.tdiv b = -a / -b := by rw [← Int.tdiv_eq_ediv_of_nonneg ha', Int.tdiv_neg, Int.neg_tdiv, Int.neg_neg]
    rw [hq]
    exact ⟨rfl, hnonneg _ _ ha' hb', cls_ediv ha' hb'⟩
  case zero =>
    rw [ha, Int.zero_tdiv]
    exact ⟨rfl, rfl⟩

/-- The small integers fit in two bits or more. -/
theorem fitsSigned_zero_one {n : Nat} (hn : 2 ≤ n) : FitsSigned n 0 ∧ FitsSigned n 1 := by
  have h : (2 : Int) ^ 1 ≤ (2 : Int) ^ (n - 1) := pow_le_pow_right₀ (by omega) (by omega)
  refine ⟨⟨?_, ?_⟩, ⟨?_, ?_⟩⟩ <;> omega

/-- Settles O36: the exact integers are 0, 1, `2a` and `a^2`. -/
theorem equalOperands : Obligations.EqualOperands := by
  intro xlen pol a hx
  obtain ⟨hzero, hone⟩ := fitsSigned_zero_one (n := xlen) (by omega)
  refine ⟨?sub, fun ha => ?div, fun hf => ?add, fun hf => ?mul⟩
  case sub =>
    have hr : aluSub a.toInt a.toInt = .ok 0 := congrArg Except.ok (Int.sub_self a.toInt)
    rw [aluExec_of_fits rfl hr hzero, BitVec.ofInt_ofNat]
    rfl
  case div =>
    have hr : aluDiv a.toInt a.toInt = .ok 1 := by rw [aluDiv_of_ne_zero _ ha, Int.tdiv_self ha]
    rw [aluExec_of_fits rfl hr hone, BitVec.ofInt_ofNat]
    rfl
  case add => exact aluExec_of_fits rfl (congrArg Except.ok (Int.two_mul a.toInt).symm) hf
  case mul => exact aluExec_of_fits rfl (congrArg Except.ok (sq a.toInt).symm) hf

/-! ## The arithmetic instructions on written sources (R183 to R187) -/

section
variable {s : State} {i : Instr} {a b v : BitVec s.cfg.xlen}

theorem exec_of_aluExec_ok {out : AluOut s.cfg.xlen} (ho : operands s.cfg.ovfPolicy s.x i.rs1 i.rs2 i.off = .ok (a, b))
    (ha : aluExec s.cfg.ovfPolicy (BitVec.ofNat 5 i.op.ord) a b = .ok out) :
    exec i s = .next (s.writeBack i.rt out.result out.cond) := by
  rw [exec_eq_dispatchToAlu, dispatchToAlu_ok (driverResult_ok ho ha)]

theorem exec_of_aluExec_error {e : Err} (ho : operands s.cfg.ovfPolicy s.x i.rs1 i.rs2 i.off = .ok (a, b))
    (ha : aluExec s.cfg.ovfPolicy (BitVec.ofNat 5 i.op.ord) a b = .error e) : exec i s = .next (s.raise (.block e)) := by
  rw [exec_eq_dispatchToAlu, dispatchToAlu_error (driverResult_alu_error ho ha)]

variable (h1 : s.readReg i.rs1 = some a) (h2 : s.readReg i.rs2 = some v)
include h1 h2

theorem operands_of_fits (hv : FitsSigned s.cfg.xlen (v.toInt + i.off)) :
    operands s.cfg.ovfPolicy s.x i.rs1 i.rs2 i.off = .ok (a, BitVec.ofInt s.cfg.xlen (v.toInt + i.off)) :=
  operands_ok h1 h2 (formB_of_fits hv)

/-- Under WRAP operand 2 is the wrapped sum of the register and the offset (R185). -/
theorem operands_of_wrap (hn : 0 < s.cfg.xlen) (hp : s.cfg.ovfPolicy = .wrap) :
    operands s.cfg.ovfPolicy s.x i.rs1 i.rs2 i.off = .ok (a, v + BitVec.ofInt s.cfg.xlen i.off) := by
  have hb : formB s.cfg.ovfPolicy v i.off = some (v + BitVec.ofInt s.cfg.xlen i.off) := by
    rw [hp, formB_wrap hn, BitVec.ofInt_add, BitVec.ofInt_toInt]
  exact operands_ok h1 h2 hb

variable {f : Int → Int → Except Err Int} {r : Int} (ht : dispatchTable (BitVec.ofNat 5 i.op.ord) = some f)
include ht

/-- An instruction whose operand 2 and exact result fit writes that result and its sign. -/
theorem exec_of_fits (hn : 0 < s.cfg.xlen) (hv : FitsSigned s.cfg.xlen (v.toInt + i.off))
    (hr : f a.toInt (v.toInt + i.off) = .ok r) (hf : FitsSigned s.cfg.xlen r) :
    exec i s = .next (s.writeBack i.rt (BitVec.ofInt s.cfg.xlen r) (cls r)) := by
  rw [← toInt_ofInt_of_fits hn hv] at hr
  exact exec_of_aluExec_ok (operands_of_fits h1 h2 hv) (aluExec_of_fits ht hr hf)

/-- Under WRAP an instruction writes the XLEN-bit value of the exact result of its wrapped operands, and its sign. -/
theorem exec_of_wrap {w : BitVec s.cfg.xlen} (hn : 0 < s.cfg.xlen) (hp : s.cfg.ovfPolicy = .wrap)
    (hb : b = v + BitVec.ofInt s.cfg.xlen i.off) (hr : f a.toInt b.toInt = .ok r) (hw : BitVec.ofInt s.cfg.xlen r = w) :
    exec i s = .next (s.writeBack i.rt w (cls w.toInt)) := by
  subst hb hw
  exact exec_of_aluExec_ok (operands_of_wrap h1 h2 hn hp) (aluExec_wrapped hn hp ht hr)

end

/-- Settles O43: the three table entries answer the exact sum, difference and product of the operands. -/
theorem addSubMulWriteTheExactResult : Obligations.AddSubMulWriteTheExactResult := by
  intro s c rt rs1 rs2 off a v ⟨hx, _⟩ h1 h2 hv
  have hn : 0 < s.cfg.xlen := by omega
  refine ⟨fun hf => ?add, fun hf => ?sub, fun hf => ?mul⟩
  case add => exact exec_of_fits (i := .add c rt rs1 rs2 off) h1 h2 rfl hn hv rfl hf
  case sub => exact exec_of_fits (i := .sub c rt rs1 rs2 off) h1 h2 rfl hn hv rfl hf
  case mul => exact exec_of_fits (i := .mul c rt rs1 rs2 off) h1 h2 rfl hn hv rfl hf

/-- Settles O44: off the corner the quotient fits, and a zero operand 2 is the entry's own error. -/
theorem divWritesTheTruncatedQuotient : Obligations.DivWritesTheTruncatedQuotient := by
  intro s c rt rs1 rs2 off a v ⟨hx, _⟩ h1 h2 hv
  have hn : 0 < s.cfg.xlen := by omega
  have hb := toInt_ofInt_of_fits hn hv
  refine ⟨fun hne hc => ?quotient, fun hz => ?zero⟩
  case quotient =>
    rw [← hb] at hc
    have hf := fitsSigned_tdiv hn hc
    rw [hb] at hf
    exact exec_of_fits (i := .div c rt rs1 rs2 off) h1 h2 rfl hn hv (aluDiv_of_ne_zero a.toInt hne) hf
  case zero =>
    exact exec_of_aluExec_error (i := .div c rt rs1 rs2 off) (operands_of_fits h1 h2 hv) (aluExec_div_zero (hb.trans hz))

/-- Settles O45: operand 2 and the result are taken modulo `2^XLEN`, where the exact integers are the operations on bit vectors. -/
theorem arithmeticWrapsUnderWrap : Obligations.ArithmeticWrapsUnderWrap := by
  intro s c rt rs1 rs2 off a v b ⟨hx, _⟩ hp h1 h2 hb
  have hn : 0 < s.cfg.xlen := by omega
  refine ⟨?add, ?sub, ?mul, fun hne => ?div, fun hz => ?zero⟩
  case add => exact exec_of_wrap (i := .add c rt rs1 rs2 off) h1 h2 rfl hn hp hb rfl (ofInt_toInt_add a b)
  case sub => exact exec_of_wrap (i := .sub c rt rs1 rs2 off) h1 h2 rfl hn hp hb rfl (ofInt_toInt_sub a b)
  case mul => exact exec_of_wrap (i := .mul c rt rs1 rs2 off) h1 h2 rfl hn hp hb rfl (ofInt_toInt_mul a b)
  case div =>
    have hr := aluDiv_of_ne_zero a.toInt (mt (toInt_eq_zero_iff b).1 hne)
    exact exec_of_wrap (i := .div c rt rs1 rs2 off) h1 h2 rfl hn hp hb hr (ofInt_toInt_tdiv a b)
  case zero =>
    subst hb
    exact exec_of_aluExec_error (i := .div c rt rs1 rs2 off) (operands_of_wrap h1 h2 hn hp)
      (aluExec_div_zero ((toInt_eq_zero_iff _).2 hz))

end Machine

end Sys2Proof
end

section
/-!
The reference driver of 43_reference_driver.md: what one instruction and one step can do (R183 to R190), the good states that
every step keeps (R181), the end of every run (R193), and that no register is special (R192).
-/

namespace Sys2Proof.Machine

/-! ## What one instruction can do (R183, R187, R189) -/

/-- The driver's two outcomes of a decoded instruction. -/
theorem exec_cases (i : Instr) (s : State) :
    (∃ e, exec i s = .next (s.raise e)) ∨ ∃ r c, exec i s = .next (s.writeBack i.rt r c) := by
  rw [exec_eq_dispatchToAlu]
  rcases dispatchToAlu_cases i.op i.rt i.rs1 i.rs2 i.off s with ⟨e, -, ht⟩ | ⟨out, -, ht⟩
  · exact .inl ⟨e, congrArg _ ht⟩
  · exact .inr ⟨out.result, out.cond, congrArg _ ht⟩

/-! ## What one step can do (R183, R189) -/

section
variable {s t : State} {w : Word}

theorem step_eq_exec {i : Instr} (hr : s.status = .running) (hw : s.prog[s.idx]? = some w) (hd : decode s.cfg w = .ok i) :
    step s = exec i s :=
  (step_of_decode_ok hr hw hd).trans (exec_eq_dispatchToAlu i s).symm

/-- With a word at `idx` a running state has a next one: the run ends in an error, or a result is written back. -/
theorem step_of_inProgram (hr : s.status = .running) (hlt : s.idx < s.prog.length) :
    (∃ e, step s = .next (s.raise e)) ∨ ∃ rt r c, step s = .next (s.writeBack rt r c) := by
  have hw := List.getElem?_eq_getElem hlt
  cases hd : decode s.cfg s.prog[s.idx] with
  | error e => exact .inl ⟨.block e, step_of_decode_error hr hw hd⟩
  | ok i =>
    rw [step_eq_exec hr hw hd]
    exact (exec_cases i s).imp_right fun h => ⟨i.rt, h⟩

/-- Where a next state comes from. -/
theorem step_next_inv (h : step s = .next t) :
    s.status = .running ∧
    ((s.idx = s.prog.length ∧ t = s.finish) ∨ (s.idx < s.prog.length ∧ ∃ e, t = s.raise e) ∨
      (s.idx < s.prog.length ∧ ∃ rt r c, t = s.writeBack rt r c)) := by
  by_cases hr : s.status = .running
  · refine ⟨hr, ?_⟩
    rcases Nat.lt_trichotomy s.idx s.prog.length with hlt | hend | hpast
    · rcases step_of_inProgram hr hlt with ⟨e, hs⟩ | ⟨rt, r, c, hs⟩
      · rw [hs] at h; cases h; exact .inr (.inl ⟨hlt, e, rfl⟩)
      · rw [hs] at h; cases h; exact .inr (.inr ⟨hlt, rt, r, c, rfl⟩)
    · rw [step_of_atEnd hr hend] at h; cases h; exact .inl ⟨hend, rfl⟩
    · rw [step_of_past hr hpast] at h; cases h
  · rw [step_of_not_running hr] at h; cases h

end

/-! ## The good states (R181) -/

section
variable {s : State}

theorem inv_launch {cfg : Config} (hc : cfg.wf) (prog : List Word) (x : RegFile cfg.xlen) : (State.launch cfg prog x).Inv where
  config := hc
  inProgram := Nat.zero_le _
  doneAtEnd := fun h => nomatch h
  errorAtWord := fun _ h => nomatch h
  ccSet := ⟨fun _ => rfl, fun _ => rfl⟩

theorem State.Inv.finish (h : s.Inv) (hend : s.idx = s.prog.length) : s.finish.Inv where
  config := h.config
  inProgram := h.inProgram
  doneAtEnd := fun _ => hend
  errorAtWord := fun _ he => nomatch he
  ccSet := h.ccSet

theorem State.Inv.raise (h : s.Inv) (hlt : s.idx < s.prog.length) (e : RunErr) : (s.raise e).Inv where
  config := h.config
  inProgram := h.inProgram
  doneAtEnd := fun hd => nomatch hd
  errorAtWord := fun _ _ => hlt
  ccSet := h.ccSet

theorem State.Inv.writeBack (h : s.Inv) (hr : s.status = .running) (hlt : s.idx < s.prog.length) (rt : Reg)
    (r : BitVec s.cfg.xlen) (c : Cc) : (s.writeBack rt r c).Inv where
  config := h.config
  inProgram := hlt
  doneAtEnd := by simp [hr]
  errorAtWord := by simp [hr]
  ccSet := by simp

end

/-- Settles O59: finish is taken only at the end, and an error or a write-back only at a word; each keeps the invariant. -/
theorem stepKeepsGoodStates : Obligations.StepKeepsGoodStates := by
  intro s t hi h
  obtain ⟨hr, ⟨hend, rfl⟩ | ⟨hlt, e, rfl⟩ | ⟨hlt, rt, r, c, rfl⟩⟩ := step_next_inv h
  · exact hi.finish hend
  · exact hi.raise hlt e
  · exact hi.writeBack hr hlt rt r c

/-- Settles O58: reset is the launch of a legal configuration. -/
theorem launchIsGood : Obligations.LaunchIsGood :=
  ⟨fun _ prog x hc => inv_launch hc prog x, inv_launch (by decide) _ _⟩

/-! ## The step (R182, R183, R187, R189) -/

/-- Settles O38: both are the launch state by definition. -/
theorem launchStateFields : Obligations.LaunchStateFields :=
  ⟨fun _ _ _ => ⟨rfl, rfl, rfl, rfl, rfl, rfl⟩, _, _, _, rfl⟩

/-- Settles O39: a word at `idx` is below the end, so the step decodes it and runs what it reads. -/
theorem stepRunsTheDecodedInstruction : Obligations.StepRunsTheDecodedInstruction :=
  fun _ _ _ hr hw hd => step_eq_exec hr hw hd

/-- Settles O40: one clause per case of the step that ends a run or finds it ended. -/
theorem stepEndsTheRun : Obligations.StepEndsTheRun := by
  intro s
  refine ⟨step_of_atEnd, fun w e => step_of_decode_error, fun hs => ?done, fun e hs => ?error⟩
  case done => exact step_of_not_running (by simp [hs])
  case error => exact step_of_not_running (by simp [hs])

/-- Settles O54: finish and an error change only `status`, a write-back advances. -/
theorem stepAdvancesOrEndsTheRun : Obligations.StepAdvancesOrEndsTheRun := by
  intro s t h
  obtain ⟨hr, ⟨-, rfl⟩ | ⟨-, e, rfl⟩ | ⟨-, rt, r, c, rfl⟩⟩ := step_next_inv h
  · exact ⟨hr, .inr ⟨by simp, rfl⟩⟩
  · exact ⟨hr, .inr ⟨by simp, rfl⟩⟩
  · exact ⟨hr, .inl ⟨hr, rfl, by simp⟩⟩

theorem getElem?_placeWord_self (l : List Word) (k : Nat) (w : Word) : (placeWord l k w)[k]? = some w := by
  have hlen : ((l ++ List.replicate (k - l.length) 0).take k).length = k := by simp; omega
  rw [placeWord, List.getElem?_append_right (by omega), hlen, Nat.sub_self]
  rfl

/-- Settles O41: the placed word stands at `idx`, so the step of a running state takes it. -/
theorem placedWordRunsNext : Obligations.PlacedWordRunsNext :=
  fun s _ _ _ hd => step_eq_exec (withFetchWord_status s _ _) (getElem?_placeWord_self _ _ _) hd

/-! ## The end of every run (R193) -/

theorem reachesIn_zero (s : State) : reachesIn 0 s s := rfl

theorem reachesIn_succ {k : Nat} {s s' t : State} (hs : step s = .next s') (h : reachesIn k s' t) : reachesIn (k + 1) s t := by
  have hc : core.step s = .next s' := hs
  simpa only [reachesIn, Host.Core.run, hc] using h

/-- Settles O60, by induction on the number of words left: at the end the step finishes, and at a word it ends the run in an error
or leaves one word fewer. -/
theorem everyRunEnds : Obligations.EveryRunEnds := by
  intro s hr hle
  induction hn : s.prog.length - s.idx generalizing s with
  | zero =>
    have hs := step_of_atEnd hr (by omega)
    exact ⟨1, s.finish, le_rfl, reachesIn_succ hs (reachesIn_zero _), .inl rfl⟩
  | succ n ih =>
    have hlt : s.idx < s.prog.length := by omega
    rcases step_of_inProgram hr hlt with ⟨e, hs⟩ | ⟨rt, r, c, hs⟩
    · exact ⟨1, s.raise e, by omega, reachesIn_succ hs (reachesIn_zero _), .inr ⟨e, rfl⟩⟩
    · have hleft : (s.writeBack rt r c).prog.length - (s.writeBack rt r c).idx = n := by simp; omega
      obtain ⟨k, t, hk, hreach, hend⟩ := ih (s.writeBack rt r c) hr hlt hleft
      exact ⟨k + 1, t, by omega, reachesIn_succ hs hreach, hend⟩

/-! ## Every instruction (R184 to R190) -/

/-- Settles O53: the driver's dispatch is a total function of the state. -/
theorem everyInstructionAnswersNext : Obligations.EveryInstructionAnswersNext :=
  fun i s => ⟨_, exec_eq_dispatchToAlu i s⟩

/-- Settles O52: the driver's dispatch takes every field but the condition. -/
theorem conditionFieldIsIgnored : Obligations.ConditionFieldIsIgnored := by
  intro op c c' rt rs1 rs2 off s
  simp [exec_eq_dispatchToAlu]

theorem exec_of_operands_error {i : Instr} {s : State} {e : RunErr}
    (h : operands s.cfg.ovfPolicy s.x i.rs1 i.rs2 i.off = .error e) : exec i s = .next (s.raise e) := by
  rw [exec_eq_dispatchToAlu, dispatchToAlu_error (driverResult_operands_error h)]

/-- Settles O48: the operands are read `rs1` first. -/
theorem unwrittenSourceEndsTheRun : Obligations.UnwrittenSourceEndsTheRun := by
  intro s i
  refine ⟨fun h1 => exec_of_operands_error (operands_rs1_unwritten h1), fun h1 h2 => ?_⟩
  obtain ⟨a, ha⟩ := Option.ne_none_iff_exists'.1 h1
  exact exec_of_operands_error (operands_rs2_unwritten ha h2)

/-- Settles O47: under FAULT operand 2 is not formed. -/
theorem operandOverflowEndsTheRun : Obligations.OperandOverflowEndsTheRun := by
  intro s i a v hp h1 h2 hv
  have hb : formB s.cfg.ovfPolicy v i.off = none := by rw [hp]; exact formB_fault hv
  exact exec_of_operands_error (operands_overflow h1 h2 hb)

/-- Settles O42: in either form the operands are `a` and `b`, and the driver writes back what exec answers on them. -/
theorem successfulExecIsWrittenBack : Obligations.SuccessfulExecIsWrittenBack := by
  intro s i a v b out h1 h2 hb ha
  rcases hb with ⟨hv, rfl⟩ | ⟨hn, hp, rfl⟩
  · exact exec_of_aluExec_ok (operands_of_fits h1 h2 hv) ha
  · exact exec_of_aluExec_ok (operands_of_wrap h1 h2 hn hp) ha

/-! ## HALT, LOAD and STORE (R186) -/

theorem dispatchTable_eq_none {op : Opcode} (h : op ∈ [Opcode.halt, Opcode.load, Opcode.store]) :
    dispatchTable (BitVec.ofNat 5 op.ord) = none := by
  revert h; cases op <;> decide

/-- Under WRAP, and of a sum that fits, operand 2 is formed at every width (R185). -/
theorem exists_formB_eq_some {xlen : Nat} {pol : OvfPolicy} {v : BitVec xlen} {off : Int}
    (h : pol = .wrap ∨ FitsSigned xlen (v.toInt + off)) : ∃ b, formB pol v off = some b := by
  by_cases hv : FitsSigned xlen (v.toInt + off)
  · exact ⟨_, formB_of_fits hv⟩
  · obtain rfl := h.resolve_right hv
    have hf : fits xlen (v.toInt + off) = false := Bool.eq_false_iff.2 (mt (fits_iff _ _).1 hv)
    exact ⟨_, by simp only [formB, deliver, hf]; rfl⟩

/-- An instruction absent from the dispatch table ends the run once its operands are formed. -/
theorem exec_unsupported {s : State} {i : Instr} {a v : BitVec s.cfg.xlen}
    (hi : i.op ∈ [Opcode.halt, Opcode.load, Opcode.store]) (h1 : s.readReg i.rs1 = some a) (h2 : s.readReg i.rs2 = some v)
    (hv : s.cfg.ovfPolicy = .wrap ∨ FitsSigned s.cfg.xlen (v.toInt + i.off)) :
    exec i s = .next (s.raise (.block (.unsupported (BitVec.ofNat 5 i.op.ord)))) := by
  obtain ⟨b, hb⟩ := exists_formB_eq_some hv
  exact exec_of_aluExec_error (operands_ok h1 h2 hb) (aluExec_unsupported a b (dispatchTable_eq_none hi))

/-- Settles O49: none of the three is in the dispatch table. -/
theorem haltLoadStoreEndTheRun : Obligations.HaltLoadStoreEndTheRun := by
  intro s c rt rs1 rs2 off a v h1 h2 hv
  refine ⟨?halt, ?load, ?store⟩
  case halt => exact exec_unsupported (i := .halt c rt rs1 rs2 off) (by simp [Instr.op]) h1 h2 hv
  case load => exact exec_unsupported (i := .load c rt rs1 rs2 off) (by simp [Instr.op]) h1 h2 hv
  case store => exact exec_unsupported (i := .store c rt rs1 rs2 off) (by simp [Instr.op]) h1 h2 hv

/-- Settles O51: a write-back would need a successful exec, and these opcodes have none. -/
theorem haltLoadStoreFrame : Obligations.HaltLoadStoreFrame := by
  intro s t i hi h
  rw [exec_eq_dispatchToAlu] at h
  cases h
  rcases dispatchToAlu_cases i.op i.rt i.rs1 i.rs2 i.off s with ⟨e, -, ht⟩ | ⟨out, ho, -⟩
  · exact ⟨e, ht⟩
  · obtain ⟨a, b, -, ha⟩ := driverResult_ok_inv ho
    rw [aluExec_unsupported a b (dispatchTable_eq_none hi)] at ha
    cases ha

/-! ## The frame of ADD, SUB, MUL and DIV (R183, R187, R189) -/

/-- Settles O50: the frames of an error and of a write-back. -/
theorem arithmeticFrame : Obligations.ArithmeticFrame := by
  intro s t i _ h
  rcases exec_cases i s with ⟨e, he⟩ | ⟨r, c, he⟩
  · rw [he] at h
    cases h
    exact ⟨rfl, rfl, fun j _ => regValue_raise s e j, .inl ⟨e, rfl⟩⟩
  · rw [he] at h
    cases h
    refine ⟨rfl, rfl, fun j hj => regValue_writeBack_of_ne s i.rt j r c hj, .inr ⟨rfl, rfl, by simp, ?_⟩⟩
    simp [State.regValue]

/-! ## Renamed registers (R192) -/

section
variable (p : Equiv.Perm Reg)

section
variable {xlen : Nat} (x : RegFile xlen) (pol : OvfPolicy) (op : Opcode) (rs1 rs2 : Reg) (off : Int)

@[simp] theorem readFile_renameFile (j : Reg) : readFile (renameFile p x) (p j) = readFile x j := by
  simp [readFile, renameFile]

theorem renameFile_set (rt : Reg) (r : BitVec xlen) :
    renameFile p (x.set rt.val (some r)) = (renameFile p x).set (p rt).val (some r) := by
  ext1 j hj
  have hrt : rt.val = (p.symm ⟨j, hj⟩).val ↔ (p rt).val = j := by
    rw [← Fin.ext_iff, Equiv.eq_symm_apply, Fin.ext_iff]
  simp [renameFile, readFile, Vector.getElem_set, hrt]

theorem operands_rename : operands pol (renameFile p x) (p rs1) (p rs2) off =
    (operands pol x rs1 rs2 off).mapError (renameErr p) := by
  have hx := readFile_renameFile p x
  cases h1 : readFile x rs1 with
  | none => rw [operands_rs1_unwritten h1, operands_rs1_unwritten ((hx rs1).trans h1)]; rfl
  | some a =>
    have h1' := (hx rs1).trans h1
    cases h2 : readFile x rs2 with
    | none => rw [operands_rs2_unwritten h1 h2, operands_rs2_unwritten h1' ((hx rs2).trans h2)]; rfl
    | some v =>
      have h2' := (hx rs2).trans h2
      cases hb : formB pol v off with
      | none => rw [operands_overflow h1 h2 hb, operands_overflow h1' h2' hb]; rfl
      | some b => rw [operands_ok h1 h2 hb, operands_ok h1' h2' hb]; rfl

/-- An error of the ALU names no register. -/
theorem driverResult_rename : driverResult pol (renameFile p x) op (p rs1) (p rs2) off =
    (driverResult pol x op rs1 rs2 off).mapError (renameErr p) := by
  have hops := operands_rename p x pol rs1 rs2 off
  cases ho : operands pol x rs1 rs2 off with
  | error e =>
    rw [ho] at hops
    rw [driverResult_operands_error ho, driverResult_operands_error hops]
    rfl
  | ok ab =>
    rw [ho] at hops
    cases ha : aluExec pol (BitVec.ofNat 5 op.ord) ab.1 ab.2 with
    | error e => rw [driverResult_alu_error ho ha, driverResult_alu_error hops ha]; rfl
    | ok out => rw [driverResult_ok ho ha, driverResult_ok hops ha]; rfl

end

variable (s : State)

theorem raise_rename (e : RunErr) : (s.rename p).raise (renameErr p e) = (s.raise e).rename p := rfl

theorem writeBack_rename (rt : Reg) (r : BitVec s.cfg.xlen) (c : Cc) :
    (s.rename p).writeBack (p rt) r c = (s.writeBack rt r c).rename p := by
  simp only [State.rename, State.writeBack, renameFile_set]

theorem dispatchToAlu_rename (op : Opcode) (rt rs1 rs2 : Reg) (off : Int) :
    dispatchToAlu op (p rt) (p rs1) (p rs2) off (s.rename p) = (dispatchToAlu op rt rs1 rs2 off s).rename p := by
  have hd := driverResult_rename p s.x s.cfg.ovfPolicy op rs1 rs2 off
  rcases dispatchToAlu_cases op rt rs1 rs2 off s with ⟨e, he, ht⟩ | ⟨out, ho, ht⟩
  · rw [he] at hd
    rw [ht, ← raise_rename]
    exact dispatchToAlu_error hd
  · rw [ho] at hd
    rw [ht, ← writeBack_rename]
    exact dispatchToAlu_ok hd

end

/-- Settles O56: reading and writing the register file commute with the renaming, and so does the driver's dispatch. -/
theorem registersAreInterchangeable : Obligations.RegistersAreInterchangeable := by
  intro p i s
  refine ⟨_, exec_eq_dispatchToAlu i s, ?_⟩
  rw [exec_eq_dispatchToAlu, ← dispatchToAlu_rename]
  simp [renameInstr]

end Sys2Proof.Machine
end

section
/-!
The errors of 60_exceptions.md: which errors each operation can raise (R200 to R205), their codes and the data outputs on the ports
(R206, R209), and the overflow of a result as the driver takes it (R205, R189).
-/

namespace Sys2Proof

/-! ## The errors of construct and decode (R201, R202) -/

theorem construct_error_inv {lsb msb : Int} {e : Err} (h : construct lsb msb = .error e) : e = .range lsb msb := by
  unfold construct at h
  split at h
  · cases h
  · exact (Except.error.inj h).symm

theorem decode_error_inv {cfg : Config} {w : Word} {e : Err} (h : decode cfg w = .error e) :
    ∃ fld raw, e = .decode fld raw := by
  rcases decode_ok_or_decodeError cfg w with ⟨i, hi⟩ | ⟨fld, raw, he⟩
  · rw [hi] at h
    cases h
  · exact ⟨fld, raw, Except.error.inj (h.symm.trans he)⟩

namespace Machine

/-! ## The errors of exec (R203 to R205) -/

/-- Only the entry of DIV can fail. -/
theorem eq_div_of_dispatchTable_error {op : BitVec 5} {f : Int → Int → Except Err Int} {x y : Int} {e : Err}
    (ht : dispatchTable op = some f) (he : f x y = .error e) : op = 7 := by
  rcases dispatchTable_cases op with ⟨-, h⟩ | ⟨-, h⟩ | ⟨-, h⟩ | ⟨-, h⟩ | ⟨hop, h⟩ <;> rw [h] at ht <;> cases ht
  · cases he
  · cases he
  · cases he
  · exact hop

/-- Only under FAULT is nothing delivered, whatever the width. -/
theorem policy_of_deliver_eq_none {xlen : Nat} {pol : OvfPolicy} {r : Int} (h : deliver xlen pol r = none) :
    pol = .fault := by
  cases pol with
  | fault => rfl
  | wrap =>
    unfold deliver at h
    split at h <;> cases h

theorem aluExec_error_kinds {xlen : Nat} {pol : OvfPolicy} {op : BitVec 5} {a b : BitVec xlen} {e : Err}
    (h : aluExec pol op a b = .error e) :
    e = .unsupported op ∨ (e = .divisionByZero ∧ op = 7) ∨ (e = .overflow op ∧ pol = .fault) := by
  rcases aluExec_error_inv h with ⟨-, he⟩ | ⟨f, ht, he | ⟨r, -, hd, he⟩⟩
  · exact .inl he
  · exact .inr (.inl ⟨dispatchTable_error ht he, eq_div_of_dispatchTable_error ht he⟩)
  · exact .inr (.inr ⟨he, policy_of_deliver_eq_none hd⟩)

/-! ## The error ports (R206, R209) -/

/-- The decoder shows data without an error, or code 2 and the failing field without data. -/
theorem decoderPorts_cases (cfg : Config) (w : Word) :
    (∃ d, decoderPorts cfg w = ⟨some d, 0, none⟩) ∨ ∃ bit, decoderPorts cfg w = ⟨none, 2, some bit⟩ := by
  rcases decode_ok_or_decodeError cfg w with ⟨i, hi⟩ | ⟨fld, raw, he⟩
  · exact .inl ⟨_, decoderPorts_of_decode_ok hi⟩
  · rw [decoderPorts_of_decode_error he]
    cases fld with
    | opcode => exact .inr ⟨0, rfl⟩
    | condition => exact .inr ⟨1, rfl⟩

/-- The ALU shows data without an error, or one of its three codes without data. -/
theorem aluPorts_cases (cfg : Config) (op : BitVec 5) (a b : BitVec cfg.xlen) :
    (∃ d, aluPorts cfg op a b = ⟨some d, 0⟩) ∨ ∃ code ∈ ([3, 4, 5] : List (BitVec 3)), aluPorts cfg op a b = ⟨none, code⟩ := by
  cases h : aluExec cfg.ovfPolicy op a b with
  | ok out => exact .inl ⟨_, aluPorts_of_ok h⟩
  | error e =>
    refine .inr ⟨errCode e, ?_, aluPorts_of_error h⟩
    rcases aluExec_error_kinds h with rfl | ⟨rfl, -⟩ | ⟨rfl, -⟩ <;> simp [errCode]

/-- Settles O37: the errors of each operation are those its cases name, a port shows the error's code, and data and a nonzero code
exclude each other in every case of the ports. -/
theorem eachOperationRaisesItsOwnErrors : Obligations.EachOperationRaisesItsOwnErrors := by
  refine ⟨fun _ _ _ => construct_error_inv, fun _ _ _ => decode_error_inv, fun cfg op a b e h => ?exec, fun cfg w => ?decoder,
    fun cfg op a b => ?alu⟩
  case exec =>
    rw [aluPorts_of_error h]
    rcases aluExec_error_kinds h with rfl | ⟨rfl, hop⟩ | ⟨rfl, hp⟩
    · exact .inl ⟨rfl, rfl⟩
    · exact .inr (.inl ⟨rfl, hop, rfl⟩)
    · exact .inr (.inr ⟨rfl, hp, rfl⟩)
  case decoder =>
    rcases decoderPorts_cases cfg w with ⟨d, h⟩ | ⟨bit, h⟩ <;> rw [h] <;> simp
  case alu =>
    rcases aluPorts_cases cfg op a b with ⟨d, h⟩ | ⟨code, hcode, h⟩ <;> rw [h]
    · simp
    · have hne : code ≠ 0 := fun h0 => absurd (h0 ▸ hcode) (by decide)
      exact ⟨List.mem_cons_of_mem 0 hcode, by simpa using hne⟩

/-! ## An overflow ends the run (R205, R189) -/

/-- Under FAULT an instruction whose operand 2 fits and whose exact result does not ends the run in its OverflowError. -/
theorem exec_of_not_fits {s : State} {i : Instr} {a v : BitVec s.cfg.xlen} {f : Int → Int → Except Err Int} {r : Int}
    (h1 : s.readReg i.rs1 = some a) (h2 : s.readReg i.rs2 = some v) (ht : dispatchTable (BitVec.ofNat 5 i.op.ord) = some f)
    (hn : 0 < s.cfg.xlen) (hp : s.cfg.ovfPolicy = .fault) (hv : FitsSigned s.cfg.xlen (v.toInt + i.off))
    (hr : f a.toInt (v.toInt + i.off) = .ok r) (hf : ¬FitsSigned s.cfg.xlen r) :
    exec i s = .next (s.raise (.block (.overflow (BitVec.ofNat 5 i.op.ord)))) := by
  rw [← toInt_ofInt_of_fits hn hv] at hr
  exact exec_of_aluExec_error (operands_of_fits h1 h2 hv) (aluExec_of_not_fits hp ht hr hf)

/-- Settles O46: the table entries answer the exact results, and in the corner of DIV the quotient is one above the greatest value. -/
theorem resultOverflowEndsTheRun : Obligations.ResultOverflowEndsTheRun := by
  intro s c rt rs1 rs2 off a v ⟨hx, _⟩ hp h1 h2 hv
  have hn : 0 < s.cfg.xlen := by omega
  refine ⟨fun hf => ?add, fun hf => ?sub, fun hf => ?mul, fun ha hb => ?div⟩
  case add => exact exec_of_not_fits (i := .add c rt rs1 rs2 off) h1 h2 rfl hn hp hv rfl hf
  case sub => exact exec_of_not_fits (i := .sub c rt rs1 rs2 off) h1 h2 rfl hn hp hv rfl hf
  case mul => exact exec_of_not_fits (i := .mul c rt rs1 rs2 off) h1 h2 rfl hn hp hv rfl hf
  case div =>
    have hf := not_fitsSigned_tdiv ha ((toInt_ofInt_of_fits hn hv).trans hb)
    rw [toInt_ofInt_of_fits hn hv] at hf
    have hne : v.toInt + off ≠ 0 := by omega
    exact exec_of_not_fits (i := .div c rt rs1 rs2 off) h1 h2 rfl hn hp hv (aluDiv_of_ne_zero a.toInt hne) hf

end Machine

end Sys2Proof
end
